-- ==== Sys2Proof/Word.lean ====
section
/-! DEFINITION. The fixed widths of 00_scope.md R8, as names for bit vectors. -/

namespace Sys2Proof

/-- A command word or a response word (30_encoding.md R70, R80). -/
abbrev Word := BitVec 32

/-- A segment byte or a character code (00_scope.md R8). -/
abbrev Byte := BitVec 8

/-- A temperature, a threshold or a response value (00_scope.md R8). -/
abbrev Half := BitVec 16

end Sys2Proof
end

