-- ==== Sys2Proof/Syntax.lean ====
section
/-! DEFINITION. The two ports, the status codes and the ten commands of the block (30_encoding.md R72). -/

namespace Sys2Proof

/-- The two command inputs of the block (60_exceptions.md R228). -/
inductive Port where
  /-- the host port: every defined opcode except TICK -/
  | host
  /-- the tick port: TICK only -/
  | tick
deriving DecidableEq, Repr, Inhabited

/-- The statuses a response can carry (60_exceptions.md R220). -/
inductive Status where
  | ok
  | errOpcode
  | errPort
  | errField
  | errIndex
deriving DecidableEq, Repr

/-- The commands, one constructor per row of the opcode table (30_encoding.md R72), with the operands of R74. -/
inductive Instr where
  /-- NOP (44_tick_and_control.md R202) -/
  | nop
  /-- TICK: the button level and the two phase levels (44_tick_and_control.md R200) -/
  | tick (btn a b : Bool)
  /-- WRDIG: physical digit index, segment byte (41_display_multiplexer.md R129) -/
  | wrdig (sel : BitVec 4) (byte : Byte)
  /-- RDDIG: physical digit index (41_display_multiplexer.md R130) -/
  | rddig (sel : BitVec 4)
  /-- WRCHR: logical position, error flag, decimal point, character code (40_segment_encoder.md R109) -/
  | wrchr (sel : BitVec 4) (e dp : Bool) (code : Byte)
  /-- GETEVT (42_quadrature_decoder.md R160) -/
  | getevt
  /-- SETLO: low threshold (43_hysteresis_controller.md R181) -/
  | setlo (threshold : Half)
  /-- SETHI: high threshold (43_hysteresis_controller.md R182) -/
  | sethi (threshold : Half)
  /-- HEVAL: fault flag, temperature (43_hysteresis_controller.md R184) -/
  | heval (fault : Bool) (temperature : Half)
  /-- RDREG: register number (44_tick_and_control.md R203) -/
  | rdreg (sel : BitVec 4)
deriving DecidableEq, Repr

end Sys2Proof
end

