-- ==== Sys2Proof/Decode.lean ====
section
/-! DEFINITION. The decoder of 30_encoding.md R77, total on every word and either port, and the encoder of R71 to R74. -/

namespace Sys2Proof

/-- The port that accepts a command (30_encoding.md R72, 60_exceptions.md R228). -/
def Instr.port : Instr → Port
  | .nop => .host
  | .tick _ _ _ => .tick
  | .wrdig _ _ => .host
  | .rddig _ => .host
  | .wrchr _ _ _ _ => .host
  | .getevt => .host
  | .setlo _ => .host
  | .sethi _ => .host
  | .heval _ _ => .host
  | .rdreg _ => .host

/-- Field `op` of the command word (30_encoding.md R71). -/
def opField (w : Word) : BitVec 4 := w.extractLsb' 28 4

/-- Field `sel` of the command word (30_encoding.md R71). -/
def selField (w : Word) : BitVec 4 := w.extractLsb' 24 4

/-- Field `f1` of the command word (30_encoding.md R71). -/
def f1Field (w : Word) : Bool := w.getLsbD 17

/-- Field `f0` of the command word (30_encoding.md R71). -/
def f0Field (w : Word) : Bool := w.getLsbD 16

/-- Field `data` of the command word (30_encoding.md R71). -/
def dataField (w : Word) : Half := w.extractLsb' 0 16

/-- The low byte of the `data` field: the segment byte of WRDIG, the character code of WRCHR (30_encoding.md R74). -/
def dataByte (w : Word) : Byte := w.extractLsb' 0 8

/-- The instruction a word names, whatever its must-be-zero bits are (30_encoding.md R72, R74); none for a reserved opcode
(R75). -/
def named (w : Word) : Option Instr :=
  match (opField w).toNat with
  | 0 => some .nop
  | 1 => some (.tick (w.getLsbD 2) (w.getLsbD 1) (w.getLsbD 0))
  | 2 => some (.wrdig (selField w) (dataByte w))
  | 3 => some (.rddig (selField w))
  | 4 => some (.wrchr (selField w) (f1Field w) (f0Field w) (dataByte w))
  | 5 => some .getevt
  | 6 => some (.setlo (dataField w))
  | 7 => some (.sethi (dataField w))
  | 8 => some (.heval (f0Field w) (dataField w))
  | 9 => some (.rdreg (selField w))
  | _ => none

/-- The must-be-zero mask of each instruction (30_encoding.md R73). -/
def Instr.mbz : Instr → Word
  | .nop => 0x0FFFFFFF#32
  | .tick _ _ _ => 0x0FFFFFF8#32
  | .wrdig _ _ => 0x00FFFF00#32
  | .rddig _ => 0x00FFFFFF#32
  | .wrchr _ _ _ _ => 0x00FCFF00#32
  | .getevt => 0x0FFFFFFF#32
  | .setlo _ => 0x0FFF0000#32
  | .sethi _ => 0x0FFF0000#32
  | .heval _ _ => 0x0FFE0000#32
  | .rdreg _ => 0x00FFFFFF#32

/-- Decoding (30_encoding.md R77): the opcode is checked first, then the port, then the must-be-zero bits. -/
def decode (w : Word) (p : Port) : Except Status Instr :=
  match named w with
  | none => .error .errOpcode
  | some i =>
    if p ≠ i.port then .error .errPort
    else if w &&& i.mbz ≠ 0#32 then .error .errField
    else .ok i

/-- A command word from its fields, `rsv` zero (30_encoding.md R71). -/
def command (op sel : BitVec 4) (f1 f0 : Bool) (data : Half) : Word :=
  op ++ sel ++ 0#6 ++ BitVec.ofBool f1 ++ BitVec.ofBool f0 ++ data

/-- The word of a command (30_encoding.md R71 to R74). -/
def encode : Instr → Word
  | .nop => command 0x0#4 0#4 false false 0#16
  | .tick btn a b => command 0x1#4 0#4 false false (0#13 ++ BitVec.ofBool btn ++ BitVec.ofBool a ++ BitVec.ofBool b)
  | .wrdig sel byte => command 0x2#4 sel false false (0#8 ++ byte)
  | .rddig sel => command 0x3#4 sel false false 0#16
  | .wrchr sel e dp code => command 0x4#4 sel e dp (0#8 ++ code)
  | .getevt => command 0x5#4 0#4 false false 0#16
  | .setlo t => command 0x6#4 0#4 false false t
  | .sethi t => command 0x7#4 0#4 false false t
  | .heval fault t => command 0x8#4 0#4 false fault t
  | .rdreg sel => command 0x9#4 sel false false 0#16

/-- The port on which a table word is looked at: the tick port for opcode 1, the host port for every other (log 15). -/
def tablePort (w : Word) : Port := if opField w = 0x1#4 then .tick else .host

/-- The low `nbits` bits of w as one command word, the bits above them zero (30_encoding.md R70, R52; log 15). -/
def tableWord (nbits w : Nat) : Word := BitVec.ofNat 32 (w % 2 ^ nbits)

/-- What the decoder reads from a word of the opcode table, offered on the port its opcode belongs to (log 15). -/
def decodeTableWord (nbits w : Nat) : Option Instr :=
  match decode (tableWord nbits w) (tablePort (tableWord nbits w)) with
  | .ok i => some i
  | .error _ => none

end Sys2Proof
end

