-- ==== Sys2Proof/Config.lean ====
section
/-! DEFINITION. The configuration record of 00_scope.md R7, its legal values, and the free values the spec leaves open. -/

namespace Sys2Proof

/-- The seven segments of a digit: a top, b upper right, c lower right, d bottom, e lower left, f upper left, g middle
(40_segment_encoder.md R100). -/
inductive Segment where
  | a | b | c | d | e | f | g
deriving DecidableEq, Repr

/-- Which event a tick reports when a button edge and a rotation occur together (42_quadrature_decoder.md R153). -/
inductive EventPriority where
  | buttonFirst
  | rotationFirst
deriving DecidableEq, Repr, Inhabited

/-- A set of segments (00_scope.md R7 "7-bit segment sets"): bit 0 says whether a is in it, up to bit 6 for g. -/
abbrev SegSet := BitVec 7

/-- SEGMAP: the bit position of each segment in the segment byte (00_scope.md R7). -/
structure SegMap where
  a : Nat
  b : Nat
  c : Nat
  d : Nat
  e : Nat
  f : Nat
  g : Nat
deriving DecidableEq, Repr

/-- The bit position SEGMAP(s) of a segment (40_segment_encoder.md R100). -/
def SegMap.pos (m : SegMap) : Segment → Nat
  | .a => m.a
  | .b => m.b
  | .c => m.c
  | .d => m.d
  | .e => m.e
  | .f => m.f
  | .g => m.g

/-- SEGMAP is a permutation of bits 7..1 (00_scope.md R7). -/
abbrev SegMap.wf (m : SegMap) : Prop :=
  [m.a, m.b, m.c, m.d, m.e, m.f, m.g].Nodup ∧ ∀ p ∈ [m.a, m.b, m.c, m.d, m.e, m.f, m.g], 1 ≤ p ∧ p ≤ 7

/-- The configuration record (00_scope.md R7), fixed before reset and changed by nothing. -/
structure Config where
  /-- N, the number of physical digits -/
  n : Nat
  /-- STEP, the stride of the digit sequencer -/
  step : Nat
  /-- INVERT, the inverted mounting mode -/
  invert : Bool
  /-- EVENT_PRIORITY -/
  priority : EventPriority
  /-- SEGMAP -/
  segmap : SegMap
  /-- DIGIT_GLYPH, the glyph of each digit 0 to 9 -/
  digitGlyph : List SegSet
  /-- LETTER_GLYPH, the glyph of each letter A to Z -/
  letterGlyph : List SegSet
  /-- TICK_HZ, informational only -/
  tickHz : Nat
deriving DecidableEq, Repr

/-- The legal values of the configuration record (00_scope.md R7). -/
abbrev Config.wf (c : Config) : Prop :=
  1 ≤ c.n ∧ c.n ≤ 16 ∧ 1 ≤ c.step ∧ c.step ≤ 15 ∧ c.segmap.wf ∧
    c.digitGlyph.length = 10 ∧ c.letterGlyph.length = 26

/-- FREE VALUE (log 4). Which port is served when both have a pending word and the model chooses for the k-th time:
20_memory.md R57 leaves the interleaving open, so nothing constrains it. -/
opaque Config.arbiter : Nat → Port

/-- FREE VALUE (log 3). EVENT_PRIORITY of the machine `State.reset`: OPEN in 00_scope.md R7. -/
opaque Config.openPriority : EventPriority

/-- FREE VALUE (log 3). LETTER_GLYPH of the machine `State.reset`, letter by letter: OPEN in 40_segment_encoder.md R103. -/
opaque Config.openLetterGlyph : Nat → SegSet

end Sys2Proof
end

