-- ==== Sys2Proof/Machine/Defaults.lean ====
section
/-! DEFINITION. The default parameters the spec gives (R7, R100, R102, R126), the configuration of `State.reset`, and the
reset value of IDX. -/

namespace Sys2Proof.Machine

/-- The default SEGMAP: a=7, b=6, c=5, d=4, e=3, f=2, g=1 (40_segment_encoder.md R100). -/
def defaultSegMap : SegMap := { a := 7, b := 6, c := 5, d := 4, e := 3, f := 2, g := 1 }

/-- The number of a segment in a segment set: a is bit 0, up to g, bit 6 (00_scope.md R7 "7-bit segment sets"). -/
def segIndex : Segment → Nat
  | .a => 0
  | .b => 1
  | .c => 2
  | .d => 3
  | .e => 4
  | .f => 5
  | .g => 6

/-- Whether a segment is in a segment set. -/
def hasSeg (S : SegSet) (s : Segment) : Bool := S.getLsbD (segIndex s)

/-- The segment set with exactly the listed segments. -/
def segSet (l : List Segment) : SegSet := l.foldl (fun S s => S ||| (1#7 <<< segIndex s)) 0#7

/-- All seven segments, in the order of their names. -/
def allSegments : List Segment := [.a, .b, .c, .d, .e, .f, .g]

/-- The default DIGIT_GLYPH, the usual seven-segment digits (40_segment_encoder.md R102). -/
def defaultDigitGlyph : List SegSet :=
  [ segSet [.a, .b, .c, .d, .e, .f],
    segSet [.b, .c],
    segSet [.a, .b, .d, .e, .g],
    segSet [.a, .b, .c, .d, .g],
    segSet [.b, .c, .f, .g],
    segSet [.a, .c, .d, .f, .g],
    segSet [.a, .c, .d, .e, .f, .g],
    segSet [.a, .b, .c],
    segSet [.a, .b, .c, .d, .e, .f, .g],
    segSet [.a, .b, .c, .d, .f, .g] ]

/-- The default STEP for N digits (41_display_multiplexer.md R126). -/
def defaultStep (n : Nat) : Nat :=
  if n % 2 = 1 then 2 else if n % 3 = 0 then 5 else 3

/-- The configuration of `State.reset`: the one 95_test_vectors.md starts from, its OPEN parameters left free
(log 2, log 3). -/
def referenceConfig : Config where
  n := 3
  step := defaultStep 3
  invert := false
  priority := Config.openPriority
  segmap := defaultSegMap
  digitGlyph := defaultDigitGlyph
  letterGlyph := (List.range 26).map Config.openLetterGlyph
  tickHz := 200

/-- The reset value of IDX, from which the first TICK lights digit 0 (10_state.md R22). -/
def resetIndex (c : Config) : BitVec 4 := BitVec.ofNat 4 ((c.n - c.step % c.n) % c.n)

end Sys2Proof.Machine
end

