-- ==== Sys2Proof/Machine/State.lean ====
section
/-! DEFINITION. The state of the block (10_state.md R20, R36), the words and inputs that wait at it, the ways a step can
stop, and the state after reset. -/

namespace Sys2Proof.Machine

/-- The event codes of 42_quadrature_decoder.md R157, which are all the values of the 2-bit mailbox (10_state.md R28). -/
inductive Event where
  | none
  | clockwise
  | counterClockwise
  | buttonPress
deriving DecidableEq, Repr

/-- The events of the output trace (10_state.md R36). -/
inductive OutEvent where
  /-- EN[i] <- 0 -/
  | digitOff (i : BitVec 4)
  /-- the start of a serial frame -/
  | latchLow
  /-- one serial data bit -/
  | bit (v : Bool)
  /-- the end of a serial frame: the latch takes the shifted byte -/
  | latchHigh
  /-- EN[i] <- 1 -/
  | digitOn (i : BitVec 4)
  /-- the relay line driven to v -/
  | relay (v : Bool)
  /-- every output set to its reset level -/
  | reset
deriving DecidableEq, Repr

/-- A response word and the port it was returned on (30_encoding.md R80). -/
structure Response where
  port : Port
  word : Word
deriving DecidableEq, Repr

/-- The digit space as a sparse list of cells, addresses rising, none holding what an unlisted index reads as (log 11). -/
abbrev Memory := List Host.Cell

/-- The state of the block and of what waits at its inputs. -/
structure State where
  /-- the configuration record, a parameter that nothing writes (00_scope.md R7; log 1) -/
  cfg : Config
  /-- IDX, the index of the digit lit by the last tick (10_state.md R22) -/
  idx : BitVec 4
  /-- BUF, the digit buffer (10_state.md R23) -/
  buf : Memory
  /-- EN, the digit enable lines, bit i for digit i (10_state.md R24; log 12) -/
  en : BitVec 16
  /-- SEGOUT, the byte last latched into the segment driver (10_state.md R25) -/
  segout : Byte
  /-- LASTPH, the phase pair of the last tick (10_state.md R26) -/
  lastph : BitVec 2
  /-- LASTBTN, the button level of the last tick, true for released (10_state.md R27) -/
  lastbtn : Bool
  /-- MBOX, the event mailbox (10_state.md R28) -/
  mbox : Event
  /-- RELAY, true for On (10_state.md R29) -/
  relay : Bool
  /-- TLOW, the low threshold (10_state.md R30) -/
  tlow : Half
  /-- THIGH, the high threshold (10_state.md R31) -/
  thigh : Half
  /-- the output trace, oldest event first (10_state.md R36) -/
  trace : List OutEvent
  /-- the MODEL's own: words the host agent has issued and the block has not performed, oldest first (log 5) -/
  hostPort : List Word
  /-- the MODEL's own: words the tick agent has issued and the block has not performed, oldest first (log 5) -/
  tickPort : List Word
  /-- the MODEL's own: the reset input is asserted and not yet served (log 6) -/
  resetPin : Bool
  /-- the MODEL's own: the responses returned so far, oldest first (log 7) -/
  responses : List Response
  /-- the MODEL's own: how often `Config.arbiter` has been asked (log 4) -/
  turn : Nat
deriving DecidableEq, Repr

/-- The faults of a step. There are none: 93_implementation_defined.md section B treats no item of the block as `fault` or
`stuck`, and every word on every port in every state has a defined result (30_encoding.md R77, 60_exceptions.md R221; log 21).
An empty type, so that no step can fault: safe. -/
inductive Fault where
deriving DecidableEq, Repr

/-- The refusals of a step. -/
inductive Refusal where
  /-- Raised only by an arm of `exec` for an instruction that has no meaning yet; no arm is left that raises it. Safe: the
  machine stops. -/
  | notModelled (mnemonic : String)
deriving DecidableEq, Repr

/-- The machine of configuration `c` right after reset (70_reset_and_hazards.md R250, R252), nothing waiting at its ports. -/
def State.resetOf (c : Config) : State where
  cfg := c
  idx := resetIndex c
  buf := []
  en := 0#16
  segout := 0x00#8
  lastph := 0b00#2
  lastbtn := false
  mbox := .none
  relay := false
  tlow := 0x8000#16
  thigh := 0x8000#16
  trace := [.reset]
  hostPort := []
  tickPort := []
  resetPin := false
  responses := []
  turn := 0

/-- The machine right after reset, in the configuration of `referenceConfig` (log 2). -/
def State.reset : State := State.resetOf referenceConfig

end Sys2Proof.Machine
end

