-- ==== Sys2Proof/Machine/Flags.lean ====
section
/-! DEFINITION. The block has no flags (10_state.md R32). Here stand the things that take their place: the status codes and
the response word, the event codes, and the outputs that are functions of the state. -/

namespace Sys2Proof.Machine

/-- The code of a status (60_exceptions.md R220). -/
def statusCode : Status → BitVec 4
  | .ok => 0#4
  | .errOpcode => 1#4
  | .errPort => 2#4
  | .errField => 3#4
  | .errIndex => 4#4

/-- The response word: status in bits 31:28, zeros, value in bits 15:0 (30_encoding.md R80). -/
def responseWord (st : Status) (value : Half) : Word := statusCode st ++ 0#12 ++ value

/-- The code of an event (42_quadrature_decoder.md R157). -/
def eventCode : Event → BitVec 2
  | .none => 0#2
  | .clockwise => 1#2
  | .counterClockwise => 2#2
  | .buttonPress => 3#2

/-- The output EVT_PENDING (42_quadrature_decoder.md R161). -/
def evtPending (s : State) : Bool := eventCode s.mbox != 0#2

/-- The outputs the block drives (10_state.md R35); the serial link shows in the trace. -/
structure Outputs where
  enable : BitVec 16
  segments : Byte
  relay : Bool
  evtPending : Bool
deriving DecidableEq, Repr

/-- The outputs as functions of the state (10_state.md R35). -/
def outputs (s : State) : Outputs where
  enable := s.en
  segments := s.segout
  relay := s.relay
  evtPending := evtPending s

end Sys2Proof.Machine
end

