-- ==== Sys2Proof/Machine/Operands.lean ====
section
/-! DEFINITION. How the commands read their operands (30_encoding.md R74): digit indices, logical positions, the phase pair
and signed temperatures. -/

namespace Sys2Proof.Machine

/-- `s16`: a 16-bit pattern as a two's-complement integer (00_scope.md R9). -/
def s16 (v : Half) : Int := v.toInt

/-- The phase pair {A, B}, A the more significant bit (00_scope.md R10, 30_encoding.md R74). -/
def phasePair (a b : Bool) : BitVec 2 := BitVec.ofBool a ++ BitVec.ofBool b

/-- Whether a digit index or position names a digit of the block (30_encoding.md R74). -/
def inRange (c : Config) (sel : BitVec 4) : Bool := decide (sel.toNat < c.n)

/-- The physical index of a logical position (40_segment_encoder.md R108). -/
def phys (c : Config) (p : BitVec 4) : BitVec 4 :=
  if c.invert then BitVec.ofNat 4 (c.n - 1 - p.toNat) else p

end Sys2Proof.Machine
end

