-- ==== Sys2Proof/Machine/Ops.lean ====
section
/-! DEFINITION. The shared operations over the state: the digit space, the enable lines, the output trace, ending a command
with a response, and reset. -/

namespace Sys2Proof.Machine

/-! ### The digit space (20_memory.md R50) -/

/-- What an index that holds no cell reads as: the reset contents of BUF (10_state.md R23). -/
def blank : Byte := 0x00#8

/-- The canonical form: indices strictly rising, and no cell that reads as an unlisted index does (log 11). -/
abbrev Memory.wf (m : Memory) : Prop :=
  m.Pairwise (fun x y => x.1 < y.1) ∧ ∀ x ∈ m, x.2 ≠ blank

/-- `MemRead(i, 1)`: the entry at an index (20_memory.md R50). -/
def Memory.read : Memory → Nat → Byte
  | [], _ => blank
  | (k, v) :: m, a => if k = a then v else Memory.read m a

/-- The cells of a memory without those at an index. -/
def Memory.erase (m : Memory) (a : Nat) : Memory := m.filter (fun x => x.1 != a)

/-- A cell put before the first cell with a greater index. -/
def Memory.insert (a : Nat) (b : Byte) : Memory → Memory
  | [] => [(a, b)]
  | (k, v) :: m => if a < k then (a, b) :: (k, v) :: m else (k, v) :: Memory.insert a b m

/-- `MemWrite(i, 1, b)`: the entry at an index becomes b; a blank entry is not listed (20_memory.md R50; log 11). -/
def Memory.write (m : Memory) (a : Nat) (b : Byte) : Memory :=
  if b = blank then Memory.erase m a else Memory.insert a b (Memory.erase m a)

/-- `BUF[i]` (00_scope.md R11). -/
def readDigit (s : State) (i : BitVec 4) : Byte := Memory.read s.buf i.toNat

/-- `BUF[i] <- b` (00_scope.md R11). -/
def writeDigit (i : BitVec 4) (b : Byte) (s : State) : State :=
  { s with buf := Memory.write s.buf i.toNat b }

/-! ### Outputs (10_state.md R35, R36) -/

/-- `emit e`: an event appended to the output trace (00_scope.md R11). -/
def emit (e : OutEvent) (s : State) : State := { s with trace := s.trace ++ [e] }

/-- The enable lines with line i dark. -/
def lineOff (en : BitVec 16) (i : BitVec 4) : BitVec 16 := en &&& ~~~(1#16 <<< i.toNat)

/-- The enable lines with line i lit. -/
def lineOn (en : BitVec 16) (i : BitVec 4) : BitVec 16 := en ||| (1#16 <<< i.toNat)

/-- `EN[i] <- 0 ; emit DigitOff(i)` (41_display_multiplexer.md R121). -/
def digitOff (i : BitVec 4) (s : State) : State := emit (.digitOff i) { s with en := lineOff s.en i }

/-- `EN[i] <- 1 ; emit DigitOn(i)` (41_display_multiplexer.md R121). -/
def digitOn (i : BitVec 4) (s : State) : State := emit (.digitOn i) { s with en := lineOn s.en i }

/-- The serial frame of a byte: latch low, the bits 7 to 0, latch high (41_display_multiplexer.md R122). -/
def frame (b : Byte) : List OutEvent :=
  [.latchLow, .bit (b.getLsbD 7), .bit (b.getLsbD 6), .bit (b.getLsbD 5), .bit (b.getLsbD 4), .bit (b.getLsbD 3),
    .bit (b.getLsbD 2), .bit (b.getLsbD 1), .bit (b.getLsbD 0), .latchHigh]

/-- A byte shifted out and latched: the frame's events, and SEGOUT at its end (41_display_multiplexer.md R121, R122). -/
def shiftOut (b : Byte) (s : State) : State := { s with segout := b, trace := s.trace ++ frame b }

/-- The relay line driven to v: RELAY and one `Relay(v)` event (43_hysteresis_controller.md R184). -/
def driveRelay (v : Bool) (s : State) : State := emit (.relay v) { s with relay := v }

/-! ### Ending a command (00_scope.md R11) -/

/-- `respond(status, value)`: the response word returned on a port (30_encoding.md R80). -/
def respond (p : Port) (st : Status) (value : Half) (s : State) : State :=
  { s with responses := s.responses ++ [{ port := p, word := responseWord st value }] }

/-- `raise E()`: the command ends with status E and value 0 and leaves everything else as it was. The block's one error
mechanism (60_exceptions.md R221); it has no trap (R224). -/
def raise (p : Port) (st : Status) (s : State) : State := respond p st 0#16 s

/-! ### Reset -/

/-- The reset input taken: every element at its reset value at once, one `Reset` event, the configuration as it was
(70_reset_and_hazards.md R250, R252, R253). Words still waiting at the ports stay there, and the responses already
returned stay returned (R251; log 6, log 7). -/
def applyReset (s : State) : State :=
  { s with
    idx := resetIndex s.cfg
    buf := []
    en := 0#16
    segout := 0x00#8
    lastph := 0b00#2
    lastbtn := false
    mbox := .none
    relay := false
    tlow := 0x8000#16
    thigh := 0x8000#16
    trace := s.trace ++ [.reset]
    resetPin := false }

end Sys2Proof.Machine
end

