-- ==== Sys2Proof/Machine/Display.lean ====
section
/-! DEFINITION. The display multiplexer: the digit sequencer, the tick step, WRDIG and RDDIG (41_display_multiplexer.md). -/

namespace Sys2Proof.Machine

/-- `next(i) = (i + STEP) mod N` (41_display_multiplexer.md R120). -/
def nextIndex (c : Config) (i : BitVec 4) : BitVec 4 := BitVec.ofNat 4 ((i.toNat + c.step) % c.n)

/-- `IDX <- next(IDX)` (41_display_multiplexer.md R121). -/
def advance (s : State) : State := { s with idx := nextIndex s.cfg s.idx }

/-- MUX_TICK: the lit digit off, the index on, the new digit's byte out, the new digit on, in this order
(41_display_multiplexer.md R121). -/
def muxTick (s : State) : State :=
  let s1 := advance (digitOff s.idx s)
  let s2 := shiftOut (readDigit s1 s1.idx) s1
  digitOn s2.idx s2

/-- WRDIG: write a raw segment byte to a physical digit (41_display_multiplexer.md R129). -/
def execWrdig (sel : BitVec 4) (byte : Byte) (s : State) : Host.Outcome State Fault Refusal :=
  if inRange s.cfg sel then .next (respond .host .ok 0#16 (writeDigit sel byte s))
  else .next (raise .host .errIndex s)

/-- RDDIG: read a digit-buffer entry (41_display_multiplexer.md R130). -/
def execRddig (sel : BitVec 4) (s : State) : Host.Outcome State Fault Refusal :=
  if inRange s.cfg sel then .next (respond .host .ok (0#8 ++ readDigit s sel) s)
  else .next (raise .host .errIndex s)

end Sys2Proof.Machine
end

