-- ==== Sys2Proof/Machine/Quadrature.lean ====
section
/-! DEFINITION. The quadrature decoder: the classifiers, the tick step, the mailbox and GETEVT (42_quadrature_decoder.md). -/

namespace Sys2Proof.Machine

/-- The button edge classifier: released at the last tick, pressed now (42_quadrature_decoder.md R151). -/
def pressEdge (lastbtn btn : Bool) : Bool := lastbtn && !btn

/-- The rotation classifier ROT_TABLE[LASTPH][ph]: only a step out of rest counts (42_quadrature_decoder.md R152). -/
def rotEvent (lastph ph : BitVec 2) : Event :=
  if lastph = 0b11#2 then
    if ph = 0b01#2 then .clockwise
    else if ph = 0b10#2 then .counterClockwise
    else .none
  else .none

/-- `select(press, rot)`: at most one event a tick; EVENT_PRIORITY says which when both occur
(42_quadrature_decoder.md R153). -/
def selectEvent (pr : EventPriority) (press : Bool) (rot : Event) : Event :=
  if press = true ∧ rot ≠ .none then
    match pr with
    | .buttonFirst => .buttonPress
    | .rotationFirst => rot
  else if press then .buttonPress
  else rot

/-- The event a tick with these pins produces, from the samples of the last tick (42_quadrature_decoder.md R156). -/
def tickEvent (s : State) (btn a b : Bool) : Event :=
  selectEvent s.cfg.priority (pressEdge s.lastbtn btn) (rotEvent s.lastph (phasePair a b))

/-- `if evt != None : MBOX <- evt` (42_quadrature_decoder.md R154). -/
def postEvent (evt : Event) (s : State) : State :=
  { s with mbox := if evt = .none then s.mbox else evt }

/-- `LASTPH <- ph ; LASTBTN <- BTN` (42_quadrature_decoder.md R155). -/
def sample (btn a b : Bool) (s : State) : State := { s with lastph := phasePair a b, lastbtn := btn }

/-- DEC_TICK, but for the event it returns, which is `tickEvent` of the same state (42_quadrature_decoder.md R156). -/
def decTick (btn a b : Bool) (s : State) : State := sample btn a b (postEvent (tickEvent s btn a b) s)

/-- GETEVT: read and clear the event mailbox (42_quadrature_decoder.md R160). -/
def execGetevt (s : State) : Host.Outcome State Fault Refusal :=
  .next (respond .host .ok (0#14 ++ eventCode s.mbox) { s with mbox := .none })

end Sys2Proof.Machine
end

