-- ==== Sys2Proof/Machine/Control.lean ====
section
/-! DEFINITION. TICK, NOP and RDREG (44_tick_and_control.md). -/

namespace Sys2Proof.Machine

/-- TICK: the multiplexer's step, then the decoder's (44_tick_and_control.md R200). -/
def execTick (btn a b : Bool) (s : State) : Host.Outcome State Fault Refusal :=
  let s1 := muxTick s
  let evt := tickEvent s1 btn a b
  let s2 := decTick btn a b s1
  .next (respond .tick .ok (0#10 ++ eventCode evt ++ s2.idx) s2)

/-- NOP: no operation (44_tick_and_control.md R202). -/
def execNop (s : State) : Host.Outcome State Fault Refusal := .next (respond .host .ok 0#16 s)

/-- The lines 0 to N-1 of the 16 enable lines (44_tick_and_control.md R203: bits N and up read 0). -/
def lineMask (n : Nat) : BitVec 16 := BitVec.ofNat 16 (2 ^ n - 1)

/-- INVERT and EVENT_PRIORITY as register CFG1 shows them (44_tick_and_control.md R203). -/
def priorityBit : EventPriority → Bool
  | .buttonFirst => false
  | .rotationFirst => true

/-- `REGVAL(n)`: the register map (44_tick_and_control.md R203); none for the reserved numbers 10 to 15. -/
def regValue (s : State) (n : BitVec 4) : Option Half :=
  match n.toNat with
  | 0 => some (0#12 ++ s.idx)
  | 1 => some (s.en &&& lineMask s.cfg.n)
  | 2 => some (0#8 ++ s.segout)
  | 3 => some (0#13 ++ BitVec.ofBool s.lastbtn ++ s.lastph)
  | 4 => some (0#14 ++ eventCode s.mbox)
  | 5 => some (0#15 ++ BitVec.ofBool s.relay)
  | 6 => some s.tlow
  | 7 => some s.thigh
  | 8 => some (0#4 ++ BitVec.ofNat 4 s.cfg.step ++ 0#3 ++ BitVec.ofNat 5 s.cfg.n)
  | 9 => some (0#14 ++ BitVec.ofBool (priorityBit s.cfg.priority) ++ BitVec.ofBool s.cfg.invert)
  | _ => none

/-- RDREG: read a state or configuration register (44_tick_and_control.md R203). -/
def execRdreg (sel : BitVec 4) (s : State) : Host.Outcome State Fault Refusal :=
  match regValue s sel with
  | some v => .next (respond .host .ok v s)
  | none => .next (raise .host .errField s)

end Sys2Proof.Machine
end

