-- ==== Sys2Proof/Machine/Hysteresis.lean ====
section
/-! DEFINITION. The hysteresis relay controller: HYST, SETLO, SETHI and HEVAL (43_hysteresis_controller.md). -/

namespace Sys2Proof.Machine

/-- HYST(T, L, H, fault, R): fault, then the high threshold, then the low one, then the retained state
(43_hysteresis_controller.md R183). -/
def hyst (t l h : Half) (fault r : Bool) : Bool :=
  if fault then false
  else if s16 h ≤ s16 t then false
  else if s16 t ≤ s16 l then true
  else r

/-- SETLO: write the low threshold (43_hysteresis_controller.md R181). -/
def execSetlo (threshold : Half) (s : State) : Host.Outcome State Fault Refusal :=
  .next (respond .host .ok 0#16 { s with tlow := threshold })

/-- SETHI: write the high threshold (43_hysteresis_controller.md R182). -/
def execSethi (threshold : Half) (s : State) : Host.Outcome State Fault Refusal :=
  .next (respond .host .ok 0#16 { s with thigh := threshold })

/-- The relay state HEVAL drives (43_hysteresis_controller.md R184). -/
def relayAfter (fault : Bool) (temperature : Half) (s : State) : Bool :=
  hyst temperature s.tlow s.thigh fault s.relay

/-- HEVAL: evaluate and drive the relay (43_hysteresis_controller.md R184). -/
def execHeval (fault : Bool) (temperature : Half) (s : State) : Host.Outcome State Fault Refusal :=
  let r := relayAfter fault temperature s
  .next (respond .host .ok (0#14 ++ BitVec.ofBool (r != s.relay) ++ BitVec.ofBool r) (driveRelay r s))

end Sys2Proof.Machine
end

