-- ==== Sys2Proof/Machine/SegmentEncoder.lean ====
section
/-! DEFINITION. The segment encoder, the inverted-mounting transform, and WRCHR (40_segment_encoder.md). -/

namespace Sys2Proof.Machine

/-- The byte with the one bit of a segment (40_segment_encoder.md R100). -/
def segBit (m : SegMap) (s : Segment) : Byte := 1#8 <<< m.pos s

/-- `byte(S)`: the bits of the segments of a set (40_segment_encoder.md R100; the positions differ, so the sum of the bits is
their or, log 13). -/
def byteOf (m : SegMap) (S : SegSet) : Byte :=
  allSegments.foldl (fun x s => if hasSeg S s then x ||| segBit m s else x) 0#8

/-- `GLYPH(code)`: digits, letters, minus; space and every unknown code are blank (40_segment_encoder.md R102 to R104). -/
def glyph (c : Config) (code : Byte) : SegSet :=
  if 0x30 ≤ code.toNat ∧ code.toNat ≤ 0x39 then c.digitGlyph.getD (code.toNat - 0x30) 0#7
  else if 0x41 ≤ code.toNat ∧ code.toNat ≤ 0x5A then c.letterGlyph.getD (code.toNat - 0x41) 0#7
  else if code = 0x2D#8 then segSet [.g]
  else 0#7

/-- `zext_8(dp)`: the decimal point, bit 0 of the segment byte (40_segment_encoder.md R100). -/
def dpBit (dp : Bool) : Byte := if dp then 1#8 else 0#8

/-- `ENC(code, dp, e)` (40_segment_encoder.md R101). -/
def enc (c : Config) (code : Byte) (dp e : Bool) : Byte :=
  byteOf c.segmap (if e then segSet allSegments else glyph c code) ||| dpBit dp

/-- `rot`: the segment a half turn puts in the place of s (40_segment_encoder.md R107). -/
def rot : Segment → Segment
  | .a => .d
  | .b => .e
  | .c => .f
  | .d => .a
  | .e => .b
  | .f => .c
  | .g => .g

/-- `INV`: the bit at SEGMAP(s) moves to SEGMAP(rot(s)), the decimal point stays (40_segment_encoder.md R107). -/
def invertByte (m : SegMap) (x : Byte) : Byte :=
  allSegments.foldl (fun y s => if x.getLsbD (m.pos s) then y ||| segBit m (rot s) else y) (x &&& 1#8)

/-- The byte WRCHR stores: encoded, and inverted where INVERT = 1 (40_segment_encoder.md R109). -/
def charByte (c : Config) (code : Byte) (dp e : Bool) : Byte :=
  if c.invert then invertByte c.segmap (enc c code dp e) else enc c code dp e

/-- WRCHR: write an encoded character at a logical position (40_segment_encoder.md R109). -/
def execWrchr (sel : BitVec 4) (e dp : Bool) (code : Byte) (s : State) : Host.Outcome State Fault Refusal :=
  if inRange s.cfg sel then
    .next (respond .host .ok (0#4 ++ phys s.cfg sel ++ charByte s.cfg code dp e)
      (writeDigit (phys s.cfg sel) (charByte s.cfg code dp e) s))
  else .next (raise .host .errIndex s)

end Sys2Proof.Machine
end

