-- ==== Sys2Proof/Machine/Dispatch.lean ====
section
/-! DEFINITION. One command performed: each constructor of Instr to its meaning. -/

namespace Sys2Proof.Machine

def exec (i : Instr) (s : State) : Host.Outcome State Fault Refusal :=
  match i with
  | .nop => Sys2Proof.Machine.execNop s
  | .tick btn a b => Sys2Proof.Machine.execTick btn a b s
  | .wrdig sel byte => Sys2Proof.Machine.execWrdig sel byte s
  | .rddig sel => Sys2Proof.Machine.execRddig sel s
  | .wrchr sel e dp code => Sys2Proof.Machine.execWrchr sel e dp code s
  | .getevt => Sys2Proof.Machine.execGetevt s
  | .setlo threshold => Sys2Proof.Machine.execSetlo threshold s
  | .sethi threshold => Sys2Proof.Machine.execSethi threshold s
  | .heval fault temperature => Sys2Proof.Machine.execHeval fault temperature s
  | .rdreg sel => Sys2Proof.Machine.execRdreg sel s

end Sys2Proof.Machine
end

