-- ==== Sys2Proof/Machine/Ports.lean ====
section
/-! DEFINITION. The two ports (60_exceptions.md R228): agents issuing words, the word performed next, one word performed,
and one step under a given choice between the ports. -/

namespace Sys2Proof.Machine

/-- An agent issues a word on its port: it waits behind the words issued there before (20_memory.md R57; log 5). -/
def State.send (p : Port) (w : Word) (s : State) : State :=
  match p with
  | .host => { s with hostPort := s.hostPort ++ [w] }
  | .tick => { s with tickPort := s.tickPort ++ [w] }

/-- The environment asserts the reset input (70_reset_and_hazards.md R250; log 6). -/
def State.assertReset (s : State) : State := { s with resetPin := true }

/-- The word performed next, its port, and the state without it. A port's words are taken in the order it issued them; where
both ports have one, `pick` says which port is served (20_memory.md R57; log 4). -/
def takeWord (pick : Port) (s : State) : Option (Port × Word × State) :=
  match s.hostPort, s.tickPort with
  | [], [] => none
  | w :: ws, [] => some (.host, w, { s with hostPort := ws })
  | [], w :: ws => some (.tick, w, { s with tickPort := ws })
  | h :: hs, t :: ts =>
    match pick with
    | .host => some (.host, h, { s with hostPort := hs, turn := s.turn + 1 })
    | .tick => some (.tick, t, { s with tickPort := ts, turn := s.turn + 1 })

/-- One command word performed on a port, as one atomic step: a word that does not decode answers its status and has no
effect (30_encoding.md R77, 20_memory.md R56, 60_exceptions.md R221). -/
def perform (p : Port) (w : Word) (s : State) : Host.Outcome State Fault Refusal :=
  match decode w p with
  | .error e => .next (raise p e s)
  | .ok i => exec i s

/-- One step where `pick` decides between two pending ports: an asserted reset is taken between commands
(70_reset_and_hazards.md R251; log 6), else one pending word is performed, else nothing happens (60_exceptions.md R235;
log 9). The steps of the block are those of every `pick` (20_memory.md R57). -/
def stepWith (pick : Port) (s : State) : Host.Outcome State Fault Refusal :=
  if s.resetPin then .next (applyReset s)
  else
    match takeWord pick s with
    | none => .next s
    | some (p, w, s') => perform p w s'

/-- The state in which w is the word performed next: first at the port its opcode belongs to, nothing waiting at the other
port, no reset asserted (log 10). -/
def placeWord (w : Word) (s : State) : State :=
  match tablePort w with
  | .host => { s with hostPort := w :: s.hostPort, tickPort := [], resetPin := false }
  | .tick => { s with tickPort := w :: s.tickPort, hostPort := [], resetPin := false }

end Sys2Proof.Machine
end

