-- ==== Sys2Proof/Machine/Step.lean ====
section
/-! DEFINITION. The step of the machine, and the state in which a given word is performed next. -/

namespace Sys2Proof.Machine

/-- One step: `stepWith` under the free choice of log 4 (20_memory.md R57). -/
def step (s : State) : Host.Outcome State Fault Refusal := stepWith (Config.arbiter s.turn) s

/-- s with the word of w waiting where the next step takes its word (log 10). -/
def State.withFetchWord (s : State) (nbits w : Nat) : State := placeWord (tableWord nbits w) s

end Sys2Proof.Machine
end

