-- ==== Sys2Proof/Machine/Assembler.lean ====
section
/-! DEFINITION. The assembler of 30_encoding.md R85 and R86: from a line of text to the commands it stands for, whose words
`encode` gives. What the rules leave open of a line's form is in log 17. -/

namespace Sys2Proof.Machine

/-- Why a line is an assembly error (30_encoding.md R85, R86). -/
inductive AsmError where
  /-- the line is none of the forms of R85 and R86 -/
  | malformed
  /-- an operand does not fit its field, or a string does not fit the display -/
  | outOfRange
deriving DecidableEq, Repr

/-- The pieces of a line. -/
inductive Token where
  | name (cs : List Char)
  | comma
  | equals
  | quoted (c : Char)
  | text (cs : List Char)
deriving DecidableEq, Repr

/-- Where in a line the tokeniser stands. -/
inductive LexMode where
  /-- outside quotes, with the letters of the name read so far, last first -/
  | plain (acc : List Char)
  /-- after an opening single quote -/
  | opened
  /-- after the character of a single-quoted operand -/
  | closing (c : Char)
  /-- inside double quotes, with the letters read so far, last first -/
  | inText (acc : List Char)
deriving DecidableEq, Repr

/-- The name read so far, if any, put before the tokens that follow. -/
def flush (acc : List Char) (ts : List Token) : List Token :=
  if acc.isEmpty then ts else .name acc.reverse :: ts

/-- The tokens of a line: names and numbers, commas, equals signs, quoted characters (quote is code 39) and strings (quote is
code 34); a semicolon outside quotes starts a comment (30_encoding.md R85). -/
def lex : LexMode → List Char → Except AsmError (List Token)
  | .plain acc, [] => .ok (flush acc [])
  | .opened, [] => .error .malformed
  | .closing _, [] => .error .malformed
  | .inText _, [] => .error .malformed
  | .plain acc, c :: cs =>
    if c = ';' then .ok (flush acc [])
    else if c = ' ' ∨ c.toNat = 9 then (lex (.plain []) cs).map (flush acc)
    else if c = ',' then (lex (.plain []) cs).map (fun ts => flush acc (.comma :: ts))
    else if c = '=' then (lex (.plain []) cs).map (fun ts => flush acc (.equals :: ts))
    else if c.toNat = 39 then (lex .opened cs).map (flush acc)
    else if c.toNat = 34 then (lex (.inText []) cs).map (flush acc)
    else lex (.plain (c :: acc)) cs
  | .opened, c :: cs => lex (.closing c) cs
  | .closing d, c :: cs =>
    if c.toNat = 39 then (lex (.plain []) cs).map (fun ts => .quoted d :: ts) else .error .malformed
  | .inText acc, c :: cs =>
    if c.toNat = 34 then (lex (.plain []) cs).map (fun ts => .text acc.reverse :: ts)
    else lex (.inText (c :: acc)) cs

/-- The value of one digit in a base up to 16. -/
def digitValue (base : Nat) (c : Char) : Except AsmError Nat :=
  let v :=
    if 48 ≤ c.toNat ∧ c.toNat ≤ 57 then c.toNat - 48
    else if 65 ≤ c.toNat ∧ c.toNat ≤ 70 then c.toNat - 55
    else if 97 ≤ c.toNat ∧ c.toNat ≤ 102 then c.toNat - 87
    else 16
  if v < base then .ok v else .error .malformed

/-- The value of a run of digits, the digits before it worth `acc`. -/
def digitsFrom (base acc : Nat) : List Char → Except AsmError Nat
  | [] => .ok acc
  | c :: cs =>
    match digitValue base c with
    | .ok v => digitsFrom base (base * acc + v) cs
    | .error e => .error e

/-- The value of a run of at least one digit. -/
def digits (base : Nat) : List Char → Except AsmError Nat
  | [] => .error .malformed
  | c :: cs => digitsFrom base 0 (c :: cs)

/-- A number without a sign: decimal, 0x hex or 0b binary (30_encoding.md R85). -/
def unsignedNumber : List Char → Except AsmError Nat
  | '0' :: 'x' :: cs => digits 16 cs
  | '0' :: 'b' :: cs => digits 2 cs
  | cs => digits 10 cs

/-- A number below a bound: an operand that does not fit its field is an error, never truncated (30_encoding.md R85). -/
def natBelow (bound : Nat) (cs : List Char) : Except AsmError Nat :=
  match unsignedNumber cs with
  | .ok v => if v < bound then .ok v else .error .outOfRange
  | .error e => .error e

/-- A temperature or threshold, in -32768..32767, as its 16-bit pattern (30_encoding.md R85). -/
def temperature : List Char → Except AsmError Half
  | '-' :: cs =>
    match unsignedNumber cs with
    | .ok v => if v ≤ 32768 then .ok (BitVec.ofInt 16 (-(v : Int))) else .error .outOfRange
    | .error e => .error e
  | cs =>
    match unsignedNumber cs with
    | .ok v => if v ≤ 32767 then .ok (BitVec.ofNat 16 v) else .error .outOfRange
    | .error e => .error e

/-- A one-bit operand. -/
def bitOperand (cs : List Char) : Except AsmError Bool := (natBelow 2 cs).map (fun v => v == 1)

/-- A digit index or position: it fits the `sel` field (30_encoding.md R85). -/
def indexOperand (cs : List Char) : Except AsmError (BitVec 4) := (natBelow 16 cs).map (BitVec.ofNat 4)

/-- The code of a quoted character: its ASCII code, which fits the 8-bit field (30_encoding.md R85). DESIGN CHOICE: a character
past ASCII is taken with its own code where that is below 256 (log 17). -/
def charCode (c : Char) : Except AsmError Byte :=
  if c.toNat < 256 then .ok (BitVec.ofNat 8 c.toNat) else .error .outOfRange

/-- The names of the registers, in the order of their numbers (30_encoding.md R85). -/
def registerNames : List String :=
  ["IDX", "EN", "SEGOUT", "DEC", "MBOX", "RELAY", "TLOW", "THIGH", "CFG0", "CFG1"]

/-- A register operand: one of the names, or a number 0..9 (30_encoding.md R85). -/
def registerOperand (cs : List Char) : Except AsmError (BitVec 4) :=
  match registerNames.findIdx? (fun r => r.toList == cs) with
  | some k => .ok (BitVec.ofNat 4 k)
  | none => (natBelow 10 cs).map (BitVec.ofNat 4)

/-- Whether a name is the given word of the language. -/
def isName (cs : List Char) (w : String) : Bool := cs == w.toList

/-- A form with no operand. -/
def noOperand (is : List Instr) (ops : List Token) : Except AsmError (List Instr) :=
  if ops = [] then .ok is else .error .malformed

/-- `TICK a=<A>, b=<B>, btn=<BTN>` (30_encoding.md R85). -/
def asmTick : List Token → Except AsmError (List Instr)
  | [.name na, .equals, .name va, .comma, .name nb, .equals, .name vb, .comma, .name nt, .equals, .name vt] =>
    if isName na "a" && isName nb "b" && isName nt "btn" then
      match bitOperand va, bitOperand vb, bitOperand vt with
      | .ok a, .ok b, .ok btn => .ok [.tick btn a b]
      | .error e, _, _ => .error e
      | _, .error e, _ => .error e
      | _, _, .error e => .error e
    else .error .malformed
  | _ => .error .malformed

/-- `WRDIG <idx>, <byte>` (30_encoding.md R85). -/
def asmWrdig : List Token → Except AsmError (List Instr)
  | [.name i, .comma, .name b] =>
    match indexOperand i, natBelow 256 b with
    | .ok sel, .ok byte => .ok [.wrdig sel (BitVec.ofNat 8 byte)]
    | .error e, _ => .error e
    | _, .error e => .error e
  | _ => .error .malformed

/-- `RDDIG <idx>` (30_encoding.md R85). -/
def asmRddig : List Token → Except AsmError (List Instr)
  | [.name i] => (indexOperand i).map (fun sel => [.rddig sel])
  | _ => .error .malformed

/-- The first operands of WRCHR, with or without `dp` after them: a quoted character, or ERR, whose data field is 0
(30_encoding.md R85). -/
def wrchrOperands (dp : Bool) (pos : List Char) : Token → Except AsmError (List Instr)
  | .quoted c =>
    match indexOperand pos, charCode c with
    | .ok sel, .ok code => .ok [.wrchr sel false dp code]
    | .error e, _ => .error e
    | _, .error e => .error e
  | .name cs =>
    if isName cs "ERR" then (indexOperand pos).map (fun sel => [.wrchr sel true dp 0#8]) else .error .malformed
  | .comma => .error .malformed
  | .equals => .error .malformed
  | .text _ => .error .malformed

/-- `WRCHR <pos>, '<c>'[, dp]` and `WRCHR <pos>, ERR[, dp]` (30_encoding.md R85). -/
def asmWrchr : List Token → Except AsmError (List Instr)
  | [.name pos, .comma, t] => wrchrOperands false pos t
  | [.name pos, .comma, t, .comma, .name d] =>
    if isName d "dp" then wrchrOperands true pos t else .error .malformed
  | _ => .error .malformed

/-- `SETLO <t>` and `SETHI <t>` (30_encoding.md R85). -/
def asmThreshold (make : Half → Instr) : List Token → Except AsmError (List Instr)
  | [.name t] => (temperature t).map (fun v => [make v])
  | _ => .error .malformed

/-- `HEVAL <t>[, fault]` (30_encoding.md R85). -/
def asmHeval : List Token → Except AsmError (List Instr)
  | [.name t] => (temperature t).map (fun v => [.heval false v])
  | [.name t, .comma, .name f] =>
    if isName f "fault" then (temperature t).map (fun v => [.heval true v]) else .error .malformed
  | _ => .error .malformed

/-- `RDREG <reg>` (30_encoding.md R85). -/
def asmRdreg : List Token → Except AsmError (List Instr)
  | [.name r] => (registerOperand r).map (fun sel => [.rdreg sel])
  | _ => .error .malformed

/-- The TICK of a phase pair and a button level. -/
def tickOfPhase (btn : Bool) (ph : Nat) : List Instr := [.tick btn (ph.testBit 1) (ph.testBit 0)]

/-- `TICKPH 0bAB[, btn=<BTN>]`, BTN being 1 where it is left out (30_encoding.md R86). DESIGN CHOICE: R86 writes the phase
operand as two binary digits, and the model takes any number below 4, in any base and with any count of digits (log 17). -/
def asmTickph : List Token → Except AsmError (List Instr)
  | [.name p] => (natBelow 4 p).map (tickOfPhase true)
  | [.name p, .comma, .name nt, .equals, .name vt] =>
    if isName nt "btn" then
      match natBelow 4 p, bitOperand vt with
      | .ok ph, .ok btn => .ok (tickOfPhase btn ph)
      | .error e, _ => .error e
      | _, .error e => .error e
    else .error .malformed
  | _ => .error .malformed

/-- `SETTH <lo>, <hi>` (30_encoding.md R86). -/
def asmSetth : List Token → Except AsmError (List Instr)
  | [.name lo, .comma, .name hi] =>
    match temperature lo, temperature hi with
    | .ok l, .ok h => .ok [.setlo l, .sethi h]
    | .error e, _ => .error e
    | _, .error e => .error e
  | _ => .error .malformed

/-- `CLRDISP`: every digit blanked, in index order (30_encoding.md R86). -/
def clearDisplay (n : Nat) : List Instr := (List.range n).map (fun k => .wrdig (BitVec.ofNat 4 k) 0#8)

/-- The WRCHRs of a string, from a position on (30_encoding.md R86). -/
def putChars : Nat → List Char → Except AsmError (List Instr)
  | _, [] => .ok []
  | pos, c :: cs =>
    match charCode c, putChars (pos + 1) cs with
    | .ok code, .ok is => .ok (.wrchr (BitVec.ofNat 4 pos) false false code :: is)
    | .error e, _ => .error e
    | _, .error e => .error e

/-- `PUTS <pos>, "<s>"`: an error where the string does not fit the N digits (30_encoding.md R86). -/
def asmPuts (n : Nat) : List Token → Except AsmError (List Instr)
  | [.name p, .comma, .text cs] =>
    match natBelow 16 p with
    | .ok pos => if pos + cs.length ≤ n then putChars pos cs else .error .outOfRange
    | .error e => .error e
  | _ => .error .malformed

/-- The commands of one tokenised line, for a display of N digits (30_encoding.md R85, R86). -/
def asmTokens (n : Nat) : List Token → Except AsmError (List Instr)
  | [] => .ok []
  | .name m :: ops =>
    if isName m "NOP" then noOperand [.nop] ops
    else if isName m "TICK" then asmTick ops
    else if isName m "WRDIG" then asmWrdig ops
    else if isName m "RDDIG" then asmRddig ops
    else if isName m "WRCHR" then asmWrchr ops
    else if isName m "GETEVT" then noOperand [.getevt] ops
    else if isName m "SETLO" then asmThreshold .setlo ops
    else if isName m "SETHI" then asmThreshold .sethi ops
    else if isName m "HEVAL" then asmHeval ops
    else if isName m "RDREG" then asmRdreg ops
    else if isName m "TICKREST" then noOperand [.tick true true true] ops
    else if isName m "TICKPH" then asmTickph ops
    else if isName m "CLRDISP" then noOperand (clearDisplay n) ops
    else if isName m "SETTH" then asmSetth ops
    else if isName m "PEEKEVT" then noOperand [.rdreg 4#4] ops
    else if isName m "DRAIN" then noOperand [.getevt] ops
    else if isName m "PUTS" then asmPuts n ops
    else .error .malformed
  | .comma :: _ => .error .malformed
  | .equals :: _ => .error .malformed
  | .quoted _ :: _ => .error .malformed
  | .text _ :: _ => .error .malformed

/-- One line assembled, for a display of N digits: the commands it stands for (30_encoding.md R85, R86). -/
def assembleLine (n : Nat) (line : List Char) : Except AsmError (List Instr) :=
  match lex (.plain []) line with
  | .ok ts => asmTokens n ts
  | .error e => .error e

/-- The lines of a program assembled one after the other: the words, in order (30_encoding.md R85). -/
def assemble (n : Nat) : List (List Char) → Except AsmError (List Word)
  | [] => .ok []
  | l :: ls =>
    match assembleLine n l, assemble n ls with
    | .ok is, .ok ws => .ok (is.map encode ++ ws)
    | .error e, _ => .error e
    | _, .error e => .error e

/-! ### Forms that claims about lines are written in -/

/-- A name of the language as a token. -/
def word (w : String) : Token := .name w.toList

/-- The commands where their operands fit, and an error where one does not (30_encoding.md R85). -/
def onlyIf (fits : Prop) [Decidable fits] (is : List Instr) : Except AsmError (List Instr) :=
  if fits then .ok is else .error .outOfRange

/-- The letters t write the integer v: a number, or a minus sign before one (30_encoding.md R85; log 17). -/
def WritesInteger (t : List Char) (v : Int) : Prop :=
  (∃ k : Nat, unsignedNumber t = .ok k ∧ v = k) ∨ ∃ (cs : List Char) (k : Nat), unsignedNumber cs = .ok k ∧ t = '-' :: cs ∧ v = -k

end Sys2Proof.Machine
end

