-- ==== Sys2Proof/Machine/Trace.lean ====
section
/-! DEFINITION. What the output trace says of the lines (10_state.md R36): the levels after a list of events, and the relay
toggles of 43_hysteresis_controller.md R185. -/

namespace Sys2Proof.Machine

/-- The lines outside the block as the trace leaves them: the enable lines, the bits shifted since, the latched byte, and the
relay line (10_state.md R35; log 19). -/
structure Lines where
  enable : BitVec 16
  shifted : Byte
  latched : Byte
  relay : Bool
deriving DecidableEq, Repr

/-- Every output at its reset level (70_reset_and_hazards.md R252). -/
def resetLines : Lines := { enable := 0#16, shifted := 0#8, latched := 0#8, relay := false }

/-- What one event does to the lines (10_state.md R36, 41_display_multiplexer.md R122): a data bit is shifted in from the
right, so the first bit of a frame ends as bit 7, and the latch copies the shifted byte at LatchHigh. -/
def Lines.after (l : Lines) : OutEvent → Lines
  | .digitOff i => { l with enable := lineOff l.enable i }
  | .latchLow => l
  | .bit v => { l with shifted := (l.shifted <<< 1) ||| (BitVec.ofBool v).setWidth 8 }
  | .latchHigh => { l with latched := l.shifted }
  | .digitOn i => { l with enable := lineOn l.enable i }
  | .relay v => { l with relay := v }
  | .reset => resetLines

/-- The lines after a list of events, starting from the reset levels. -/
def linesAfter (t : List OutEvent) : Lines := t.foldl Lines.after resetLines

/-- At most one of the enable lines is lit (41_display_multiplexer.md R124). -/
def atMostOneLit (en : BitVec 16) : Bool := en &&& (en - 1#16) == 0#16

/-- How often the relay line's level changes over a list of events, from the given level: at a `Relay(v)` event that differs
from the level before it, and at a `Reset` event that turns the line Off (43_hysteresis_controller.md R185,
70_reset_and_hazards.md R252). -/
def togglesFrom (level : Bool) : List OutEvent → Nat
  | [] => 0
  | .relay v :: t => (if v = level then 0 else 1) + togglesFrom v t
  | .reset :: t => (if level then 1 else 0) + togglesFrom false t
  | .digitOff _ :: t => togglesFrom level t
  | .latchLow :: t => togglesFrom level t
  | .bit _ :: t => togglesFrom level t
  | .latchHigh :: t => togglesFrom level t
  | .digitOn _ :: t => togglesFrom level t

/-- The relay toggles of an output trace; the line is Off before its first event (43_hysteresis_controller.md R185). -/
def relayToggles (t : List OutEvent) : Nat := togglesFrom false t

end Sys2Proof.Machine
end

