-- ==== Sys2Proof/WellFormed.lean ====
section
/-! DEFINITION. When the operands of a command are ones the block performs it with, in a block of N digits: the operand
checks of 30_encoding.md R74. (The must-be-zero check of R76 is about words and stands in Decode.lean.) -/

namespace Sys2Proof

/-- The operand checks of 30_encoding.md R74: a digit index or position is below N, a register number is at most 9.
A command that fails them is still an instruction (R72): it answers ERR_INDEX or ERR_FIELD and does nothing else. -/
def Instr.wellFormed (n : Nat) : Instr → Bool
  | .nop => true
  | .tick _ _ _ => true
  | .wrdig sel _ => decide (sel.toNat < n)
  | .rddig sel => decide (sel.toNat < n)
  | .wrchr sel _ _ _ => decide (sel.toNat < n)
  | .getevt => true
  | .setlo _ => true
  | .sethi _ => true
  | .heval _ _ => true
  | .rdreg sel => decide (sel.toNat ≤ 9)

end Sys2Proof
end

