-- ==== Sys2Proof/Safety.lean ====
section
/-! DEFINITION. What claims about the machine speak of: the invariant of its states, the states it can reach under every
behaviour of its two agents, and runs of commands. -/

namespace Sys2Proof.Machine

/-- The digit space holds only digits of the block, in canonical form (10_state.md R23; log 11). -/
def BufOk (s : State) : Prop := Memory.wf s.buf ∧ ∀ x ∈ s.buf, x.1 < s.cfg.n

/-- Between commands the enable lines are all dark or exactly the line of IDX is lit (41_display_multiplexer.md R124). -/
def EnableOk (s : State) : Prop := s.en = 0#16 ∨ s.en = 1#16 <<< s.idx.toNat

/-- What the trace leaves on the lines is what the state says the block drives (10_state.md R35, R36). -/
def TraceOk (s : State) : Prop :=
  (linesAfter s.trace).enable = s.en ∧ (linesAfter s.trace).latched = s.segout ∧ (linesAfter s.trace).relay = s.relay

/-- At every point of the trace at most one digit is lit (41_display_multiplexer.md R124). -/
def LitOk (s : State) : Prop :=
  ∀ t : List OutEvent, t <+: s.trace → atMostOneLit (linesAfter t).enable = true

/-- The invariant of the block: a legal configuration (00_scope.md R7), IDX a digit of the block (10_state.md R22), and the
four clauses above. -/
structure Inv (s : State) : Prop where
  cfg : s.cfg.wf
  idx : s.idx.toNat < s.cfg.n
  buf : BufOk s
  enable : EnableOk s
  trace : TraceOk s
  lit : LitOk s

/-- The states the block can be in, from reset, whatever words its agents issue and when, whichever port is served when both
have a word, and whenever reset is asserted (20_memory.md R57, 70_reset_and_hazards.md R251). -/
inductive Reachable (c : Config) : State → Prop where
  | reset : Reachable c (State.resetOf c)
  | send (p : Port) (w : Word) {s : State} : Reachable c s → Reachable c (State.send p w s)
  | assertReset {s : State} : Reachable c s → Reachable c (State.assertReset s)
  | step (pick : Port) {s t : State} : Reachable c s → stepWith pick s = .next t → Reachable c t

/-- A list of commands performed one after the other, stopping at the first that does not answer a next state. -/
def execAll : List Instr → State → Host.Outcome State Fault Refusal
  | [], s => .next s
  | i :: is, s =>
    match exec i s with
    | .next t => execAll is t
    | .fault r => .fault r
    | .refused r => .refused r

/-- Whether a command is a TICK. -/
def isTick : Instr → Bool
  | .tick _ _ _ => true
  | .nop => false
  | .wrdig _ _ => false
  | .rddig _ => false
  | .wrchr _ _ _ _ => false
  | .getevt => false
  | .setlo _ => false
  | .sethi _ => false
  | .heval _ _ => false
  | .rdreg _ => false

/-! ### Forms that claims are written in -/

/-- The must-be-zero mask of each opcode 0x0..0x9, as the table of 30_encoding.md R73 lists them. -/
def mbzTable : List Word :=
  [0x0FFFFFFF#32, 0x0FFFFFF8#32, 0x00FFFF00#32, 0x00FFFFFF#32, 0x00FCFF00#32, 0x0FFFFFFF#32, 0x0FFF0000#32, 0x0FFF0000#32,
    0x0FFE0000#32, 0x00FFFFFF#32]

/-- The mask of R73 for the opcode of a word; no bit for a reserved opcode. -/
def mbzOf (w : Word) : Word := mbzTable.getD (w.extractLsb' 28 4).toNat 0#32

/-- Whether a word's opcode belongs on a port: TICK on the tick port, every other on the host port
(60_exceptions.md R228). -/
def onItsPort (w : Word) (p : Port) : Prop := w.extractLsb' 28 4 = 0x1#4 ↔ p = .tick

/-- The status code a word earns on a port of a block of N digits, by the causes of 60_exceptions.md R220 in the priority of
R222. -/
def StatusIs (n : Nat) (p : Port) (w : Word) (code : BitVec 4) : Prop :=
  let op := (w.extractLsb' 28 4).toNat
  let sel := (w.extractLsb' 24 4).toNat
  (10 ≤ op ∧ code = 1#4) ∨
  (op < 10 ∧ ¬ onItsPort w p ∧ code = 2#4) ∨
  (op < 10 ∧ onItsPort w p ∧ (w &&& mbzOf w ≠ 0#32 ∨ (op = 9 ∧ 10 ≤ sel)) ∧ code = 3#4) ∨
  (op < 10 ∧ onItsPort w p ∧ w &&& mbzOf w = 0#32 ∧ (op = 2 ∨ op = 3 ∨ op = 4) ∧ n ≤ sel ∧ code = 4#4) ∨
  (op < 10 ∧ onItsPort w p ∧ w &&& mbzOf w = 0#32 ∧ ¬ (op = 9 ∧ 10 ≤ sel) ∧
    ¬ ((op = 2 ∨ op = 3 ∨ op = 4) ∧ n ≤ sel) ∧ code = 0#4)

/-- s with one more response, the word r on port p, and nothing else changed. -/
def answered (p : Port) (r : Word) (s : State) : State :=
  { s with responses := s.responses ++ [{ port := p, word := r }] }

/-- The word w, performed on port p in state s, answers the status code with value 0 and has no other effect
(60_exceptions.md R221). -/
def AnswersOnly (p : Port) (w : Word) (code : BitVec 4) (s : State) : Prop :=
  perform p w s = .next (answered p (code ++ 0#28) s)

/-- What the words with opcode `op` do: on the other port they answer ERR_PORT only (status 2); on their own port those with
a must-be-zero bit set answer ERR_FIELD only (status 3), and every other one performs the command `cmd` reads from it
(30_encoding.md R77). -/
def WordsPerform (op : BitVec 4) (own other : Port) (bad : Word → Prop) (cmd : Word → Instr) : Prop :=
  ∀ (s : State) (w : Word), w.extractLsb' 28 4 = op →
    AnswersOnly other w 2#4 s ∧
    (bad w → AnswersOnly own w 3#4 s) ∧
    (¬ bad w → perform own w s = exec (cmd w) s)

/-- The pins of one tick: button level, phase A, phase B. -/
structure Pins where
  btn : Bool
  a : Bool
  b : Bool
deriving DecidableEq, Repr

/-- The TICK with the given pins. -/
def tickOf (p : Pins) : Instr := .tick p.btn p.a p.b

/-- The event code in a TICK's response word, bits 5:4 of the value (30_encoding.md R81). -/
def eventBits (r : Response) : BitVec 2 := r.word.extractLsb' 4 2

end Sys2Proof.Machine
end

