-- ==== Sys2Proof/Certificates/Slice0/Obligations.lean ====
section
/-! DEFINITION. The statements about the model, one Prop each; OBLIGATIONS.json lists them with their rules. -/

open Sys2Proof Sys2Proof.Machine

/-! ### Words and commands -/

/-- The examples of 30_encoding.md R87 decode to the commands they are written for. (R87 is marked derived from R71, R73 and
R85.) -/
def Obligations.WrittenWordsDecode : Prop :=
  decode 0x10000007#32 .tick = .ok (.tick true true true) ∧
  decode 0x10000005#32 .tick = .ok (.tick true false true) ∧
  decode 0x10000006#32 .tick = .ok (.tick true true false) ∧
  decode 0x10000003#32 .tick = .ok (.tick false true true) ∧
  decode 0x220000DA#32 .host = .ok (.wrdig 2#4 0xDA#8) ∧
  decode 0x40010037#32 .host = .ok (.wrchr 0#4 false true 0x37#8) ∧
  decode 0x60000020#32 .host = .ok (.setlo 32#16) ∧
  decode 0x70000041#32 .host = .ok (.sethi 65#16) ∧
  decode 0x8000FFFB#32 .host = .ok (.heval false (BitVec.ofInt 16 (-5))) ∧
  decode 0x8001001E#32 .host = .ok (.heval true 30#16) ∧
  decode 0x95000000#32 .host = .ok (.rdreg 5#4)

/-- The word of every command decodes, on the command's port, to that command, whatever its operands. -/
def Obligations.DecodeOfEncodeIsTheCommand : Prop :=
  ∀ i : Instr, decode (encode i) i.port = .ok i

/-- Where a word decodes, it is the word of the command it decodes to, and it came on that command's port: no bit of a
performed word is dropped. -/
def Obligations.EncodeOfDecodeIsTheWord : Prop :=
  ∀ (w : Word) (p : Port) (i : Instr), decode w p = .ok i → encode i = w ∧ i.port = p

/-- 30_encoding.md R77: every word on either port is checked for its opcode, then its port, then its must-be-zero bits
(masks of R73); one that passes decodes, and its fields are those of the word. -/
def Obligations.DecodeChecksOpcodePortThenField : Prop :=
  ∀ (w : Word) (p : Port),
    (10 ≤ (w.extractLsb' 28 4).toNat → decode w p = .error .errOpcode) ∧
    ((w.extractLsb' 28 4).toNat < 10 → ¬ onItsPort w p → decode w p = .error .errPort) ∧
    ((w.extractLsb' 28 4).toNat < 10 → onItsPort w p → w &&& mbzOf w ≠ 0#32 → decode w p = .error .errField) ∧
    ((w.extractLsb' 28 4).toNat < 10 → onItsPort w p → w &&& mbzOf w = 0#32 → ∃ i, decode w p = .ok i ∧ encode i = w)

/-- 30_encoding.md R75: a word with a reserved opcode answers ERR_OPCODE on either port and has no effect, and no other word
answers ERR_OPCODE: it names an instruction. -/
def Obligations.ReservedOpcodesAnswerErrOpcode : Prop :=
  ∀ (p : Port) (w : Word) (s : State),
    (10 ≤ (w.extractLsb' 28 4).toNat → AnswersOnly p w 1#4 s) ∧
    ((w.extractLsb' 28 4).toNat < 10 → (∃ i, named w = some i) ∧ ¬ AnswersOnly p w 1#4 s)

/-- 30_encoding.md R76: a word of a defined opcode with a must-be-zero bit set answers ERR_FIELD on its own port and has no
effect. -/
def Obligations.SetReservedBitsAnswerErrField : Prop :=
  ∀ (p : Port) (w : Word) (s : State),
    (w.extractLsb' 28 4).toNat < 10 → onItsPort w p → w &&& mbzOf w ≠ 0#32 → AnswersOnly p w 3#4 s

/-! ### Responses, statuses and steps -/

/-- 30_encoding.md R80: every word performed on a port returns one response word on that port; bits 27:16 of it are zero, and
its value is zero whenever its status is not OK. -/
def Obligations.EveryCommandReturnsOneResponseWord : Prop :=
  ∀ (p : Port) (w : Word) (s : State), ∃ (t : State) (r : Word),
    perform p w s = .next t ∧ t.responses = s.responses ++ [{ port := p, word := r }] ∧
    r.extractLsb' 16 12 = 0#12 ∧ (r.extractLsb' 28 4 ≠ 0#4 → r.extractLsb' 0 16 = 0#16)

/-- 60_exceptions.md R220 and R222: the status of the response is the one its cause gives, one cause being reported in the
priority opcode, port, field, index; the codes 5 to 15 are never returned. -/
def Obligations.StatusFollowsCauseAndPriority : Prop :=
  ∀ (p : Port) (w : Word) (s : State), ∃ (t : State) (r : Word),
    perform p w s = .next t ∧ t.responses = s.responses ++ [{ port := p, word := r }] ∧
    StatusIs s.cfg.n p w (r.extractLsb' 28 4) ∧ (r.extractLsb' 28 4).toNat ≤ 4

/-- 60_exceptions.md R221: a command that answers any status other than OK has no effect: nothing of the state changes but
the responses, and the response value is 0. -/
def Obligations.FailedCommandsHaveNoEffect : Prop :=
  ∀ (p : Port) (w r : Word) (s t : State),
    perform p w s = .next t → t.responses = s.responses ++ [{ port := p, word := r }] → r.extractLsb' 28 4 ≠ 0#4 →
    t = answered p r s ∧ r = r.extractLsb' 28 4 ++ 0#28

/-- A step runs the decoded command. With no reset asserted: a word waiting at one port only, which decodes to i, is taken
from its port and i is performed (by `step`, whatever the free choice of log 4); with words at both ports the choice of either
port performs the word first at that port, and `step` makes one of the two choices. -/
def Obligations.StepRunsTheDecodedCommand : Prop :=
  ∀ (s : State) (i : Instr) (w : Word) (ws : List Word), s.resetPin = false →
    (s.hostPort = w :: ws → s.tickPort = [] → decode w .host = .ok i → step s = exec i { s with hostPort := ws }) ∧
    (s.hostPort = [] → s.tickPort = w :: ws → decode w .tick = .ok i → step s = exec i { s with tickPort := ws }) ∧
    (s.hostPort = w :: ws → s.tickPort ≠ [] → decode w .host = .ok i →
      stepWith .host s = exec i { s with hostPort := ws, turn := s.turn + 1 }) ∧
    (s.hostPort ≠ [] → s.tickPort = w :: ws → decode w .tick = .ok i →
      stepWith .tick s = exec i { s with tickPort := ws, turn := s.turn + 1 }) ∧
    (step s = stepWith .host s ∨ step s = stepWith .tick s)

/-- A word placed for the next step (log 10), if it decodes on the port of its opcode, is performed by the next step, with
nothing waiting at the other port. -/
def Obligations.PlacedWordIsPerformedNext : Prop :=
  ∀ (s : State) (nbits w : Nat) (i : Instr), decodeTableWord nbits w = some i →
    step (s.withFetchWord nbits w) =
      exec i (match i.port with
        | .host => { s with tickPort := [], resetPin := false }
        | .tick => { s with hostPort := [], resetPin := false })

/-- The order of the commands (20_memory.md section 4): a step with no reset asserted takes at most one word, the oldest of one
port, and performs it; a word an agent issues waits behind the words of its port; and where both ports have a word, either of
them may be the next. That a port holds any number of waiting words (log 5), that the model counts the choices between two
ports (log 4), and that a step with no word waiting answers the same state (log 9) are the model's choices. -/
def Obligations.PortOrderIsKeptAndInterleavingIsOpen : Prop :=
  (∀ (pick : Port) (s t : State), s.resetPin = false → stepWith pick s = .next t →
    (s.hostPort = [] ∧ s.tickPort = [] ∧ t = s) ∨
    (∃ w k, s.hostPort = w :: t.hostPort ∧ t.tickPort = s.tickPort ∧
      perform .host w { s with hostPort := t.hostPort, turn := k } = .next t) ∨
    (∃ w k, s.tickPort = w :: t.tickPort ∧ t.hostPort = s.hostPort ∧
      perform .tick w { s with tickPort := t.tickPort, turn := k } = .next t)) ∧
  (∀ (s : State) (h t : Word) (hs ts : List Word), s.resetPin = false → s.hostPort = h :: hs → s.tickPort = t :: ts →
    stepWith .host s = perform .host h { s with hostPort := hs, turn := s.turn + 1 } ∧
    stepWith .tick s = perform .tick t { s with tickPort := ts, turn := s.turn + 1 }) ∧
  (∀ (s : State) (w : Word),
    State.send .host w s = { s with hostPort := s.hostPort ++ [w] } ∧
    State.send .tick w s = { s with tickPort := s.tickPort ++ [w] })

/-- 93_implementation_defined.md section B: no item of the block is treated as a fault or as stuck. Every step from every
state answers a next state. -/
def Obligations.EveryStepAnswersANextState : Prop :=
  ∀ s : State, ∃ t : State, step s = .next t

/-- 60_exceptions.md section 6: between commands the block does nothing and keeps all its state. (That the model then answers
the same state again, rather than stopping, is the model's choice, log 9.) -/
def Obligations.IdleBlockKeepsItsState : Prop :=
  ∀ s : State, s.resetPin = false → s.hostPort = [] → s.tickPort = [] → step s = .next s

/-! ### Reset -/

/-- Reset (70_reset_and_hazards.md section 1): a step with the reset input asserted sets every element of the block to its reset
value, all at once. That it is served before the words waiting at the ports, which stay there, and lowers the input (log 6),
and that the responses returned before it stay recorded (log 7), are the model's choices. -/
def Obligations.ResetInputSetsEveryElement : Prop :=
  ∀ s : State, s.resetPin = true →
    step s = .next { s with
      idx := BitVec.ofNat 4 ((s.cfg.n - s.cfg.step % s.cfg.n) % s.cfg.n)
      buf := []
      en := 0#16
      segout := 0x00#8
      lastph := 0b00#2
      lastbtn := false
      mbox := .none
      relay := false
      tlow := 0x8000#16
      thigh := 0x8000#16
      trace := s.trace ++ [.reset]
      resetPin := false } ∧
    ∀ a : Nat, Memory.read [] a = 0x00#8

/-- 70_reset_and_hazards.md R252: at reset every output takes its reset level and the trace gains one Reset event, which is a
toggle of the relay line exactly where the trace had left that line On. -/
def Obligations.ResetPutsOutputsToResetLevels : Prop :=
  ∀ s : State, s.resetPin = true → ∃ t : State, step s = .next t ∧
    outputs t = { enable := 0#16, segments := 0x00#8, relay := false, evtPending := false } ∧
    t.trace = s.trace ++ [.reset] ∧
    relayToggles t.trace = relayToggles s.trace + (if (linesAfter s.trace).relay then 1 else 0)

/-- The machine right after reset, for every configuration: the table of 70_reset_and_hazards.md R250. (The empty ports, the
empty responses, the counter and the configuration of `State.reset` are the model's choices, log 2 to log 7.) -/
def Obligations.MachineAfterResetHasResetValues : Prop :=
  (∀ c : Config, let s := State.resetOf c
    s.idx = BitVec.ofNat 4 ((c.n - c.step % c.n) % c.n) ∧ (∀ a, Memory.read s.buf a = 0x00#8) ∧ s.en = 0#16 ∧
    s.segout = 0x00#8 ∧ s.lastph = 0b00#2 ∧ s.lastbtn = false ∧ eventCode s.mbox = 0#2 ∧ s.relay = false ∧
    s.tlow.toInt = -32768 ∧ s.thigh.toInt = -32768 ∧ s.trace = [.reset]) ∧
  State.reset = State.resetOf referenceConfig

/-- The configuration record is changed by no step, reset included (00_scope.md section 4, 70_reset_and_hazards.md section
1). -/
def Obligations.ConfigurationNeverChanges : Prop :=
  ∀ (pick : Port) (s t : State), stepWith pick s = .next t → t.cfg = s.cfg

/-! ### The commands -/

/-- 44_tick_and_control.md R202: NOP answers OK with value 0 and does nothing else; its words. -/
def Obligations.NopAnswersOkAndChangesNothing : Prop :=
  (∀ s : State, exec .nop s = .next (answered .host 0x00000000#32 s)) ∧
  WordsPerform 0x0#4 .host .tick (fun w => w.extractLsb' 0 28 ≠ 0#28) (fun _ => .nop)

/-- 44_tick_and_control.md R200, with MUX_TICK (41_display_multiplexer.md R121, R122) and DEC_TICK (42_quadrature_decoder.md
R154, R155, R156) written out: the old line off, the index advanced by STEP modulo N, that digit's byte shifted out MSB first
and latched, the new line on; the event selected from the samples of the last tick (R151 to R153, stated apart), stored if
there is one; the samples replaced; the event code and the new index answered. Everything else is unchanged. -/
def Obligations.TickAdvancesDisplayThenSamplesEncoder : Prop :=
  (∀ (s : State) (btn a b : Bool),
    let new := BitVec.ofNat 4 ((s.idx.toNat + s.cfg.step) % s.cfg.n)
    let byte := Memory.read s.buf new.toNat
    let evt := selectEvent s.cfg.priority (pressEdge s.lastbtn btn) (rotEvent s.lastph (BitVec.ofBool a ++ BitVec.ofBool b))
    exec (.tick btn a b) s = .next { s with
      idx := new
      en := (s.en &&& ~~~(1#16 <<< s.idx.toNat)) ||| (1#16 <<< new.toNat)
      segout := byte
      lastph := BitVec.ofBool a ++ BitVec.ofBool b
      lastbtn := btn
      mbox := if evt = .none then s.mbox else evt
      trace := s.trace ++ ([.digitOff s.idx, .latchLow] ++ [7, 6, 5, 4, 3, 2, 1, 0].map (fun k => .bit (byte.getLsbD k)) ++
        [.latchHigh, .digitOn new])
      responses := s.responses ++ [{ port := .tick, word := 0#26 ++ eventCode evt ++ new }] }) ∧
  WordsPerform 0x1#4 .tick .host (fun w => w.extractLsb' 3 25 ≠ 0#25)
    (fun w => .tick (w.getLsbD 2) (w.getLsbD 1) (w.getLsbD 0))

/-- 41_display_multiplexer.md R129: WRDIG stores the byte at a physical index below N and answers OK with value 0; every other
entry, and everything else, is unchanged; an index of N or more answers ERR_INDEX only; its words. -/
def Obligations.WrdigStoresOneDigit : Prop :=
  (∀ (s : State) (sel : BitVec 4) (byte : Byte), sel.toNat < s.cfg.n →
    ∃ t : State, exec (.wrdig sel byte) s = .next t ∧ t = answered .host 0x00000000#32 { s with buf := t.buf } ∧
      Memory.read t.buf sel.toNat = byte ∧ ∀ a : Nat, a ≠ sel.toNat → Memory.read t.buf a = Memory.read s.buf a) ∧
  (∀ (s : State) (sel : BitVec 4) (byte : Byte), s.cfg.n ≤ sel.toNat →
    exec (.wrdig sel byte) s = .next (answered .host 0x40000000#32 s)) ∧
  WordsPerform 0x2#4 .host .tick (fun w => w.extractLsb' 8 16 ≠ 0#16)
    (fun w => .wrdig (w.extractLsb' 24 4) (w.extractLsb' 0 8))

/-- 41_display_multiplexer.md R130: RDDIG answers the entry at a physical index below N; an index of N or more answers
ERR_INDEX; it changes nothing; its words. -/
def Obligations.RddigAnswersTheDigit : Prop :=
  (∀ (s : State) (sel : BitVec 4), sel.toNat < s.cfg.n →
    exec (.rddig sel) s = .next (answered .host (0#24 ++ Memory.read s.buf sel.toNat) s)) ∧
  (∀ (s : State) (sel : BitVec 4), s.cfg.n ≤ sel.toNat →
    exec (.rddig sel) s = .next (answered .host 0x40000000#32 s)) ∧
  WordsPerform 0x3#4 .host .tick (fun w => w.extractLsb' 0 24 ≠ 0#24) (fun w => .rddig (w.extractLsb' 24 4))

/-- 40_segment_encoder.md R109: WRCHR encodes the character (ENC of R101, stated apart), maps the logical position and
transforms the byte where INVERT = 1 (R107, R108), stores the byte at that one physical index and answers index and byte;
every other entry, and everything else, is unchanged; a position of N or more answers ERR_INDEX only; its words. -/
def Obligations.WrchrStoresTheEncodedCharacter : Prop :=
  (∀ (s : State) (sel : BitVec 4) (e dp : Bool) (code : Byte), s.cfg.n ≤ 16 → sel.toNat < s.cfg.n →
    let p := if s.cfg.invert then s.cfg.n - 1 - sel.toNat else sel.toNat
    let byte := if s.cfg.invert then invertByte s.cfg.segmap (enc s.cfg code dp e) else enc s.cfg code dp e
    ∃ t : State, exec (.wrchr sel e dp code) s = .next t ∧
      t = answered .host (0#20 ++ BitVec.ofNat 4 p ++ byte) { s with buf := t.buf } ∧
      Memory.read t.buf p = byte ∧ ∀ a : Nat, a ≠ p → Memory.read t.buf a = Memory.read s.buf a) ∧
  (∀ (s : State) (sel : BitVec 4) (e dp : Bool) (code : Byte), s.cfg.n ≤ sel.toNat →
    exec (.wrchr sel e dp code) s = .next (answered .host 0x40000000#32 s)) ∧
  WordsPerform 0x4#4 .host .tick (fun w => w.extractLsb' 18 6 ≠ 0#6 ∨ w.extractLsb' 8 8 ≠ 0#8)
    (fun w => .wrchr (w.extractLsb' 24 4) (w.getLsbD 17) (w.getLsbD 16) (w.extractLsb' 0 8))

/-- 42_quadrature_decoder.md R160: GETEVT answers the event code the mailbox holds and clears the mailbox, in one step, and
changes nothing else; its words. -/
def Obligations.GetevtAnswersAndClearsTheMailbox : Prop :=
  (∀ s : State, exec .getevt s = .next (answered .host (0#30 ++ eventCode s.mbox) { s with mbox := .none })) ∧
  WordsPerform 0x5#4 .host .tick (fun w => w.extractLsb' 0 28 ≠ 0#28) (fun _ => .getevt)

/-- 43_hysteresis_controller.md R181: SETLO writes TLOW, any 16-bit value, answers OK with value 0, and changes nothing else;
its words. -/
def Obligations.SetloWritesTheLowThreshold : Prop :=
  (∀ (s : State) (v : Half), exec (.setlo v) s = .next (answered .host 0x00000000#32 { s with tlow := v })) ∧
  WordsPerform 0x6#4 .host .tick (fun w => w.extractLsb' 16 12 ≠ 0#12) (fun w => .setlo (w.extractLsb' 0 16))

/-- 43_hysteresis_controller.md R182: SETHI writes THIGH, any 16-bit value, answers OK with value 0, and changes nothing else;
its words. -/
def Obligations.SethiWritesTheHighThreshold : Prop :=
  (∀ (s : State) (v : Half), exec (.sethi v) s = .next (answered .host 0x00000000#32 { s with thigh := v })) ∧
  WordsPerform 0x7#4 .host .tick (fun w => w.extractLsb' 16 12 ≠ 0#12) (fun w => .sethi (w.extractLsb' 0 16))

/-- 43_hysteresis_controller.md R183 and R184: HEVAL drives the relay Off on a fault, else Off from the high threshold up, else
On from the low threshold down, else leaves it, all signed; it emits one Relay event and answers the relay and whether it
changed; nothing else changes; its words. -/
def Obligations.HevalDrivesTheRelay : Prop :=
  (∀ (s : State) (fault : Bool) (v : Half),
    let new :=
      if fault = true then false
      else if v.toInt ≥ s.thigh.toInt then false
      else if v.toInt ≤ s.tlow.toInt then true
      else s.relay
    exec (.heval fault v) s = .next (answered .host
      (0#30 ++ BitVec.ofBool (decide (new ≠ s.relay)) ++ BitVec.ofBool new)
      { s with relay := new, trace := s.trace ++ [.relay new] })) ∧
  WordsPerform 0x8#4 .host .tick (fun w => w.extractLsb' 17 11 ≠ 0#11)
    (fun w => .heval (w.getLsbD 16) (w.extractLsb' 0 16))

/-- 44_tick_and_control.md R203: RDREG answers each register of the map, zero-extended, and ERR_FIELD for the numbers 10 to 15;
it changes nothing; its words. -/
def Obligations.RdregAnswersTheRegisterMap : Prop :=
  (∀ s : State,
    exec (.rdreg 0#4) s = .next (answered .host (0#28 ++ s.idx) s) ∧
    (∃ v : BitVec 16, exec (.rdreg 1#4) s = .next (answered .host (0#16 ++ v) s) ∧
      ∀ k : Nat, k < 16 → v.getLsbD k = (decide (k < s.cfg.n) && s.en.getLsbD k)) ∧
    exec (.rdreg 2#4) s = .next (answered .host (0#24 ++ s.segout) s) ∧
    exec (.rdreg 3#4) s = .next (answered .host (0#29 ++ BitVec.ofBool s.lastbtn ++ s.lastph) s) ∧
    exec (.rdreg 4#4) s = .next (answered .host (0#30 ++ eventCode s.mbox) s) ∧
    exec (.rdreg 5#4) s = .next (answered .host (0#31 ++ BitVec.ofBool s.relay) s) ∧
    exec (.rdreg 6#4) s = .next (answered .host (0#16 ++ s.tlow) s) ∧
    exec (.rdreg 7#4) s = .next (answered .host (0#16 ++ s.thigh) s) ∧
    (s.cfg.wf → exec (.rdreg 8#4) s = .next (answered .host (BitVec.ofNat 32 (s.cfg.n + 256 * s.cfg.step)) s)) ∧
    exec (.rdreg 9#4) s = .next (answered .host
      (0#30 ++ BitVec.ofBool (decide (s.cfg.priority = .rotationFirst)) ++ BitVec.ofBool s.cfg.invert) s) ∧
    ∀ sel : BitVec 4, 10 ≤ sel.toNat → exec (.rdreg sel) s = .next (answered .host 0x30000000#32 s)) ∧
  WordsPerform 0x9#4 .host .tick (fun w => w.extractLsb' 0 24 ≠ 0#24) (fun w => .rdreg (w.extractLsb' 24 4))

/-! ### The segment encoder -/

/-- 40_segment_encoder.md section 1 (R100, R101): in the byte ENC gives, bit 0 is the decimal point, and the bit of a segment
says whether the character's glyph, or the error pattern, lights it. -/
def Obligations.EncodedByteShowsSegmentsAndPoint : Prop :=
  ∀ (c : Config) (code : Byte) (dp e : Bool), c.segmap.wf →
    (enc c code dp e).getLsbD 0 = dp ∧
    ∀ seg : Segment, (enc c code dp e).getLsbD (c.segmap.pos seg) = (e || hasSeg (glyph c code) seg)

/-- 40_segment_encoder.md R102, R103 and R104: digits and letters come from their tables, space is blank, minus is segment g,
every other code is blank; no glyph sets the decimal point; with the defaults the digits are the ten bytes of R102. -/
def Obligations.GlyphOfEveryCharacterCode : Prop :=
  (∀ (c : Config) (code : Byte), c.wf →
    (0x30 ≤ code.toNat ∧ code.toNat ≤ 0x39 → c.digitGlyph[code.toNat - 0x30]? = some (glyph c code)) ∧
    (0x41 ≤ code.toNat ∧ code.toNat ≤ 0x5A → c.letterGlyph[code.toNat - 0x41]? = some (glyph c code)) ∧
    (code = 0x20#8 → glyph c code = 0#7) ∧
    (code = 0x2D#8 → ∀ seg : Segment, hasSeg (glyph c code) seg = decide (seg = .g)) ∧
    (¬ (0x30 ≤ code.toNat ∧ code.toNat ≤ 0x39) → ¬ (0x41 ≤ code.toNat ∧ code.toNat ≤ 0x5A) → code ≠ 0x20#8 →
      code ≠ 0x2D#8 → glyph c code = 0#7) ∧
    (byteOf c.segmap (glyph c code)).getLsbD 0 = false) ∧
  defaultDigitGlyph.map (byteOf defaultSegMap) =
    [0xFC#8, 0x60#8, 0xDA#8, 0xF2#8, 0x66#8, 0xB6#8, 0xBE#8, 0xE0#8, 0xFE#8, 0xF6#8]

/-- 40_segment_encoder.md R105: with the error flag the byte is 0xFE, whatever the segment map and the code, with the decimal
point ored in; it is the byte of the digit 8 under the default tables. -/
def Obligations.ErrorPatternLightsEverySegment : Prop :=
  ∀ (c : Config) (code : Byte) (dp : Bool), c.segmap.wf →
    enc c code dp true = (if dp then 0xFF#8 else 0xFE#8) ∧
    (c.segmap = defaultSegMap → c.digitGlyph = defaultDigitGlyph → enc c code dp true = enc c 0x38#8 dp false)

/-- The decimal point is independent of the glyph: bit 0 is dp, and the bits 7 to 1 are the same with either dp
(40_segment_encoder.md section 2; the spec marks R106 as derived from R100 and R101). -/
def Obligations.DecimalPointIsIndependentOfTheGlyph : Prop :=
  ∀ (c : Config) (code : Byte) (dp e : Bool), c.segmap.wf →
    (enc c code dp e).getLsbD 0 = dp ∧
    (enc c code dp e).extractLsb' 1 7 = (enc c code (!dp) e).extractLsb' 1 7

/-- 40_segment_encoder.md section 3 (R107, which the spec marks in part as derived): INV exchanges a with d, b with e and c with f and fixes g and the decimal point, for every
segment map; with the default map it is the formula of R107; applied twice it is the identity. -/
def Obligations.InversionExchangesSegments : Prop :=
  (∀ (m : SegMap) (x : Byte), m.wf →
    (∀ q ∈ [(Segment.a, Segment.d), (.b, .e), (.c, .f), (.d, .a), (.e, .b), (.f, .c), (.g, .g)],
      (invertByte m x).getLsbD (m.pos q.2) = x.getLsbD (m.pos q.1)) ∧
    (invertByte m x).getLsbD 0 = x.getLsbD 0 ∧ invertByte m (invertByte m x) = x) ∧
  ∀ x : Byte, invertByte defaultSegMap x = ((x >>> 3) &&& 0x1C#8) ||| ((x <<< 3) &&& 0xE0#8) ||| (x &&& 0x03#8)

/-- The inverted position map is its own inverse and stays below N (40_segment_encoder.md section 3, R108 and R110; the spec
marks R110 as derived). -/
def Obligations.InvertedPositionIsSelfInverse : Prop :=
  ∀ (c : Config) (p : BitVec 4), c.n ≤ 16 → p.toNat < c.n →
    (phys c p).toNat < c.n ∧ phys c (phys c p) = p ∧
    (phys c p).toNat = if c.invert then c.n - 1 - p.toNat else p.toNat

/-- Writing a character with INVERT = 1 leaves at the mirrored physical index the INV of the byte that the same write leaves
with INVERT = 0 (40_segment_encoder.md section 4; the spec marks R110 as derived). -/
def Obligations.InvertedWriteIsTheRotatedMirroredWrite : Prop :=
  ∀ (s : State) (sel : BitVec 4) (e dp : Bool) (code : Byte), s.cfg.n ≤ 16 → sel.toNat < s.cfg.n →
    ∃ t u : State,
      exec (.wrchr sel e dp code) { s with cfg := { s.cfg with invert := false } } = .next t ∧
      exec (.wrchr sel e dp code) { s with cfg := { s.cfg with invert := true } } = .next u ∧
      Memory.read u.buf (s.cfg.n - 1 - sel.toNat) = invertByte s.cfg.segmap (Memory.read t.buf sel.toNat)

/-! ### The display multiplexer -/

/-- Only TICK and HEVAL append to the output trace: twelve events a TICK, whatever the state, and one a HEVAL
(10_state.md section 6, 41_display_multiplexer.md section 1; the spec marks R123 as derived). -/
def Obligations.OnlyTickAndHevalEmitEvents : Prop :=
  ∀ (i : Instr) (s : State), ∃ (t : State) (ev : List OutEvent), exec i s = .next t ∧ t.trace = s.trace ++ ev ∧
    ev.length = match i with
      | .tick _ _ _ => 12
      | .heval _ _ => 1
      | _ => 0

/-- Each element of 10_state.md section 1 is written only by the commands its table names. -/
def Obligations.OnlyTheNamedCommandsWriteEachElement : Prop :=
  ∀ (i : Instr) (s t : State), exec i s = .next t →
    (t.idx ≠ s.idx ∨ t.en ≠ s.en ∨ t.segout ≠ s.segout ∨ t.lastph ≠ s.lastph ∨ t.lastbtn ≠ s.lastbtn →
      ∃ btn a b, i = .tick btn a b) ∧
    (t.buf ≠ s.buf → (∃ sel byte, i = .wrdig sel byte) ∨ ∃ sel e dp code, i = .wrchr sel e dp code) ∧
    (t.mbox ≠ s.mbox → (∃ btn a b, i = .tick btn a b) ∨ i = .getevt) ∧
    (t.relay ≠ s.relay → ∃ fault v, i = .heval fault v) ∧
    (t.tlow ≠ s.tlow → ∃ v, i = .setlo v) ∧
    (t.thigh ≠ s.thigh → ∃ v, i = .sethi v)

/-- The visiting order (41_display_multiplexer.md section 2; the spec marks R125 as derived from R120 and R22): over any
commands performed from reset, j of them TICKs, the lit digit and IDX are ((j - 1) * STEP) mod N once j is 1 or more, and no
digit is lit before. -/
def Obligations.TicksVisitDigitsInStrideOrder : Prop :=
  ∀ (c : Config) (is : List Instr), c.wf → ∃ t : State, execAll is (State.resetOf c) = .next t ∧
    (is.countP isTick = 0 → t.en = 0#16) ∧
    (0 < is.countP isTick →
      t.idx.toNat = ((is.countP isTick - 1) * c.step) % c.n ∧ t.en = 1#16 <<< t.idx.toNat)

/-- Full coverage (41_display_multiplexer.md section 2, R126, whose first half the spec marks as derived): where
gcd(STEP, N) = 1, N consecutive TICKs from any state of the block light each digit exactly once. -/
def Obligations.CoprimeStrideLightsEveryDigitOnce : Prop :=
  ∀ (s : State) (ps : List Pins), s.cfg.wf → s.idx.toNat < s.cfg.n → EnableOk s → Nat.gcd s.cfg.step s.cfg.n = 1 →
    ps.length = s.cfg.n →
    ∀ d : Nat, d < s.cfg.n → ∃! j : Nat, j < s.cfg.n ∧
      ∃ t : State, execAll ((ps.take (j + 1)).map tickOf) s = .next t ∧ t.idx.toNat = d ∧ t.en = 1#16 <<< d

/-- With g = gcd(STEP, N), N consecutive TICKs light exactly the digits congruent to IDX modulo g, each of them alone at a TICK
that leaves IDX there: the block is fully defined for every stride (41_display_multiplexer.md section 2,
70_reset_and_hazards.md section 3). -/
def Obligations.StrideLightsExactlyTheCongruentDigits : Prop :=
  ∀ (s : State) (ps : List Pins), s.cfg.wf → s.idx.toNat < s.cfg.n → EnableOk s → ps.length = s.cfg.n →
    ∀ d : Nat, d < s.cfg.n →
      ((∃ j, j < s.cfg.n ∧ ∃ t : State, execAll ((ps.take (j + 1)).map tickOf) s = .next t ∧ t.en.getLsbD d = true) ↔
        d % Nat.gcd s.cfg.step s.cfg.n = s.idx.toNat % Nat.gcd s.cfg.step s.cfg.n) ∧
      ((∃ j, j < s.cfg.n ∧ ∃ t : State, execAll ((ps.take (j + 1)).map tickOf) s = .next t ∧ t.idx.toNat = d ∧
          t.en = 1#16 <<< d) ↔
        d % Nat.gcd s.cfg.step s.cfg.n = s.idx.toNat % Nat.gcd s.cfg.step s.cfg.n)

/-- Display latency (41_display_multiplexer.md section 3; the spec marks R131 as derived): after a WRDIG the segments keep
their byte until a TICK; a TICK that selects the written digit shows the new byte, one that selects another digit shows that
digit's byte; with gcd(STEP, N) = 1 the written digit is shown by one of the next N TICKs, and, where it is the digit lit at
the write, by the N-th and none before. -/
def Obligations.WrittenDigitIsShownWhenSelected : Prop :=
  ∀ (s : State) (sel : BitVec 4) (byte : Byte) (ps : List Pins),
    s.cfg.wf → s.idx.toNat < s.cfg.n → sel.toNat < s.cfg.n →
    (∃ t : State, execAll (.wrdig sel byte :: ps.map tickOf) s = .next t ∧
      (ps = [] → t.segout = s.segout) ∧
      (ps ≠ [] → t.idx = sel → t.segout = byte) ∧
      (ps ≠ [] → t.idx ≠ sel → t.segout = Memory.read s.buf t.idx.toNat)) ∧
    (Nat.gcd s.cfg.step s.cfg.n = 1 → ps.length = s.cfg.n →
      (∃ j, j < s.cfg.n ∧ ∃ t : State, execAll (.wrdig sel byte :: (ps.take (j + 1)).map tickOf) s = .next t ∧
        t.idx = sel ∧ t.segout = byte) ∧
      (sel = s.idx → ∀ (j : Nat) (t : State), j < s.cfg.n →
        execAll (.wrdig sel byte :: (ps.take (j + 1)).map tickOf) s = .next t → (t.idx = sel ↔ j + 1 = s.cfg.n)))

/-! ### The quadrature decoder -/

/-- 42_quadrature_decoder.md R151: a button event is a press, the level 1 at the last tick and 0 now; a release, a held and an
idle button give none. -/
def Obligations.PressIsAFallingButtonEdge : Prop :=
  pressEdge true false = true ∧ pressEdge false true = false ∧ pressEdge false false = false ∧ pressEdge true true = false

/-- 42_quadrature_decoder.md R152: the rotation table, all sixteen entries. -/
def Obligations.RotationOnlyOutOfRest : Prop :=
  ∀ lastph ph : BitVec 2,
    rotEvent lastph ph =
      if lastph = 0b11#2 ∧ ph = 0b01#2 then .clockwise
      else if lastph = 0b11#2 ∧ ph = 0b10#2 then .counterClockwise
      else .none

/-- 42_quadrature_decoder.md R153: at most one event is produced per tick; where a press and a rotation meet, EVENT_PRIORITY
says which, and the other is lost. -/
def Obligations.OneEventIsSelectedPerTick : Prop :=
  ∀ (pr : EventPriority) (press : Bool) (rot : Event),
    (press = true → rot ≠ .none → pr = .buttonFirst → selectEvent pr press rot = .buttonPress) ∧
    (press = true → rot ≠ .none → pr = .rotationFirst → selectEvent pr press rot = rot) ∧
    (press = true → rot = .none → selectEvent pr press rot = .buttonPress) ∧
    (press = false → selectEvent pr press rot = rot)

/-- The first TICK after a reset answers no event and leaves the mailbox empty, whatever the pins, and loads the samples
(42_quadrature_decoder.md section 3; the spec marks R163 as derived). The reset is the one the machine starts from or any later
one, and any words may have been performed or rejected since: the state is any reachable one whose trace has a Reset with no
digit lit after it, that is, with no TICK since. -/
def Obligations.FirstTickAfterResetReportsNothing : Prop :=
  ∀ (c : Config) (s : State) (old since : List OutEvent) (p : Pins), Reachable c s → s.trace = old ++ .reset :: since →
    (∀ i, .digitOn i ∉ since) →
    ∃ (t : State) (r : Response), exec (tickOf p) s = .next t ∧ t.responses = s.responses ++ [r] ∧ eventBits r = 0#2 ∧
      t.mbox = .none ∧ t.lastph = phasePair p.a p.b ∧ t.lastbtn = p.btn

/-- Detents and bounce (42_quadrature_decoder.md section 3; the spec marks R159 and R162 as derived): from rest, with the
button level steady, the event codes that each sequence of phase pairs answers: a clockwise and a counter-clockwise detent
give one event each, an aborted detent one, a skipped single-low state none, rest-edge bounce two. -/
def Obligations.DetentsFromRestGiveTheirEvents : Prop :=
  ∀ (s : State) (btn : Bool), s.lastph = 0b11#2 → s.lastbtn = btn →
    ∀ q ∈ [ ([(false, true), (false, false), (true, false), (true, true)], [1#2, 0#2, 0#2, 0#2]),
            ([(true, false), (false, false), (false, true), (true, true)], [2#2, 0#2, 0#2, 0#2]),
            ([(false, true), (true, true)], [1#2, 0#2]),
            ([(false, false), (true, true)], [0#2, 0#2]),
            ([(false, true), (true, true), (false, true)], [1#2, 0#2, 1#2]) ],
      ∃ (t : State) (rs : List Response), execAll (q.1.map (fun ab => .tick btn ab.1 ab.2)) s = .next t ∧
        t.responses = s.responses ++ rs ∧ rs.map eventBits = q.2

/-- An event leaves the mailbox only by being answered or by being overwritten (20_memory.md R59): a command that changes the
mailbox is a GETEVT, which answers the code it clears, or a TICK, which stores a new event. -/
def Obligations.MailboxEventsAreAnsweredOrOverwritten : Prop :=
  ∀ (i : Instr) (s t : State), exec i s = .next t → t.mbox ≠ s.mbox →
    (i = .getevt ∧ t.mbox = .none ∧
      t.responses = s.responses ++ [{ port := .host, word := 0#30 ++ eventCode s.mbox }]) ∨
    (∃ btn a b, i = .tick btn a b ∧ t.mbox ≠ .none ∧
      ∃ r : Response, t.responses = s.responses ++ [r] ∧ eventBits r = eventCode t.mbox)

/-- EVT_PENDING is 1 exactly while the mailbox holds an event (42_quadrature_decoder.md section 4): a TICK that stores an event
raises it, GETEVT lowers it, and no other command changes it. -/
def Obligations.EventPendingFollowsTheMailbox : Prop :=
  ∀ (i : Instr) (s t : State), exec i s = .next t →
    (evtPending t = true ↔ t.mbox ≠ .none) ∧
    (evtPending s = false → evtPending t = true → ∃ btn a b, i = .tick btn a b) ∧
    (evtPending s = true → evtPending t = false → i = .getevt)

/-! ### The hysteresis relay controller -/

/-- 43_hysteresis_controller.md section 4 (the spec marks R186 as derived from R183): with low below high, strictly between
the thresholds any number of HEVALs leaves the relay; at the low threshold it is On; at the high one Off; and with a fault it
is Off for all thresholds. -/
def Obligations.RelayKeepsTheDeadBand : Prop :=
  ∀ (s : State) (v : Half),
    (∀ k : Nat, s.tlow.toInt < v.toInt → v.toInt < s.thigh.toInt →
      ∃ t : State, execAll (List.replicate k (.heval false v)) s = .next t ∧ t.relay = s.relay) ∧
    (s.tlow.toInt < s.thigh.toInt → ∃ t : State, exec (.heval false s.tlow) s = .next t ∧ t.relay = true) ∧
    (∃ t : State, exec (.heval false s.thigh) s = .next t ∧ t.relay = false) ∧
    (∃ t : State, exec (.heval true v) s = .next t ∧ t.relay = false)

/-- 43_hysteresis_controller.md R187: with the low threshold at or above the high one, HEVAL without a fault gives Off from the
high threshold up, where both tests hold too, and On below it; the relay is never left unchanged by the dead band. -/
def Obligations.CrossedThresholdsHaveNoDeadBand : Prop :=
  ∀ (s : State) (v : Half), s.thigh.toInt ≤ s.tlow.toInt →
    ∃ t : State, exec (.heval false v) s = .next t ∧ t.relay = decide (v.toInt < s.thigh.toInt)

/-- 43_hysteresis_controller.md section 4 (the spec marks R188 as derived from R183): over any commands performed from reset
with no SETHI among them, the relay is Off. -/
def Obligations.RelayStaysOffUntilSethi : Prop :=
  ∀ (c : Config) (is : List Instr), (∀ v : Half, .sethi v ∉ is) →
    ∃ t : State, execAll is (State.resetOf c) = .next t ∧ t.relay = false ∧ t.thigh = 0x8000#16

/-- 43_hysteresis_controller.md section 3 (R185, marked derived from R183 and R184): every HEVAL appends a Relay event, which is
a toggle exactly where the relay changed, and any number of HEVALs with the same operands toggles the line at most once. -/
def Obligations.RepeatedHevalTogglesAtMostOnce : Prop :=
  ∀ (s : State) (fault : Bool) (v : Half) (k : Nat), (linesAfter s.trace).relay = s.relay →
    (∃ t : State, exec (.heval fault v) s = .next t ∧
      relayToggles t.trace = relayToggles s.trace + (if t.relay = s.relay then 0 else 1)) ∧
    ∃ t : State, execAll (List.replicate k (.heval fault v)) s = .next t ∧
      relayToggles t.trace ≤ relayToggles s.trace + 1

/-! ### The whole machine -/

/-- What belongs to one port only (10_state.md section 7, R37): a TICK does the same whatever the relay and the thresholds
are, and leaves them; HEVAL, SETLO and SETHI do the same whatever the tick port's elements, the buffer and the mailbox are,
and leave them. -/
def Obligations.PortsDoNotShareTheirOwnElements : Prop :=
  (∀ (s t : State) (p : Pins) (r : Bool) (l h : Half), exec (tickOf p) s = .next t →
    t.relay = s.relay ∧ t.tlow = s.tlow ∧ t.thigh = s.thigh ∧
    exec (tickOf p) { s with relay := r, tlow := l, thigh := h } = .next { t with relay := r, tlow := l, thigh := h }) ∧
  (∀ (s t : State) (i : Instr) (d : BitVec 4) (m : Memory) (n : BitVec 16) (g : Byte) (ph : BitVec 2) (bt : Bool) (e : Event),
    (∃ v, i = .setlo v) ∨ (∃ v, i = .sethi v) ∨ (∃ f v, i = .heval f v) → exec i s = .next t →
    t.idx = s.idx ∧ t.buf = s.buf ∧ t.en = s.en ∧ t.segout = s.segout ∧ t.lastph = s.lastph ∧ t.lastbtn = s.lastbtn ∧
    t.mbox = s.mbox ∧
    exec i { s with idx := d, buf := m, en := n, segout := g, lastph := ph, lastbtn := bt, mbox := e } =
      .next { t with idx := d, buf := m, en := n, segout := g, lastph := ph, lastbtn := bt, mbox := e })

/-- The invariant (legal configuration, IDX below N, the buffer canonical and within the digits, all lines dark or exactly
IDX lit, the trace agreeing with the outputs, and at most one digit lit at every point of the trace) is kept by every step,
whichever port is served. -/
def Obligations.EveryStepKeepsTheInvariant : Prop :=
  ∀ (s t : State), Inv s → (step s = .next t → Inv t) ∧ ∀ pick : Port, stepWith pick s = .next t → Inv t

/-- The invariant holds right after reset, for every legal configuration, and of `State.reset`. -/
def Obligations.ResetStateHasTheInvariant : Prop :=
  (∀ c : Config, c.wf → Inv (State.resetOf c)) ∧ Inv State.reset

/-- Every state the block can be in, whatever words its agents issue, in every interleaving of the ports and with reset
asserted at any time, has the invariant; so at most one digit is lit at every point of its trace
(41_display_multiplexer.md section 2; the spec marks R124 as derived). -/
def Obligations.ReachableStatesHaveTheInvariant : Prop :=
  ∀ (c : Config) (s : State), c.wf → Reachable c s → Inv s ∧ s.cfg = c

/-- Between the first TICK and the next reset exactly the digit of IDX is lit, in every reachable state: the enable lines are
dark only while no TICK has been performed since the last reset, that is, while no digit event follows the last Reset event of
the trace (41_display_multiplexer.md section 2; the spec marks R124 as derived). -/
def Obligations.ExactlyOneDigitIsLitSinceTheFirstTick : Prop :=
  ∀ (c : Config) (s : State), c.wf → Reachable c s →
    ∃ old since : List OutEvent, s.trace = old ++ .reset :: since ∧ .reset ∉ since ∧
      ((∃ i, .digitOn i ∈ since) → s.en = 1#16 <<< s.idx.toNat) ∧
      ((∀ i, .digitOn i ∉ since) → s.en = 0#16)

/-! ### The assembler -/

/-- The examples of 30_encoding.md section 6 (R85 to R87) assemble to their words, and the seven pseudo-instructions to their
expansions, for the display of three digits. What a line may look like where the section is silent is the model's choice
(log 17). -/
def Obligations.AssemblyExamplesGiveTheirWords : Prop :=
  assemble 3 (["TICK a=1, b=1, btn=1", "TICK a=0, b=1, btn=1", "TICK a=1, b=0, btn=1", "TICK a=1, b=1, btn=0",
      "WRDIG 2, 0xDA", "WRCHR 0, '7', dp", "WRCHR 0, ERR, dp", "SETLO 32", "SETHI 65", "HEVAL -5", "HEVAL 30, fault",
      "RDREG RELAY", "NOP", "RDDIG 2", "GETEVT"].map String.toList) =
    .ok [0x10000007#32, 0x10000005#32, 0x10000006#32, 0x10000003#32, 0x220000DA#32, 0x40010037#32, 0x40030000#32,
      0x60000020#32, 0x70000041#32, 0x8000FFFB#32, 0x8001001E#32, 0x95000000#32, 0x00000000#32, 0x32000000#32,
      0x50000000#32] ∧
  assemble 3 (["TICKREST", "TICKPH 0b01", "TICKPH 0b10, btn=0", "CLRDISP", "SETTH 32, 65", "PEEKEVT", "DRAIN",
      "PUTS 1, \"12\""].map String.toList) =
    .ok [0x10000007#32, 0x10000005#32, 0x10000002#32, 0x20000000#32, 0x21000000#32, 0x22000000#32, 0x60000020#32,
      0x70000041#32, 0x94000000#32, 0x50000000#32, 0x41000031#32, 0x42000032#32]

/-- No operand is truncated (30_encoding.md section 6): in every form that has operands, with x, y and z numbers of any size
and t and u integers of any size, the line gives the command with exactly those operands where each of them fits its field
(one bit, a four-bit index, a byte, a character code below 256, a register number 0..9, a temperature or threshold in
-32768..32767, a phase pair, a string within the display), and is an error where one does not. And every word an assembled
program holds decodes to a command whose register number, if it has one, is at most 9. How a number or a phase pair may be
written, and the range of a quoted character, are the model's choices (log 17). -/
def Obligations.AssembledProgramsHoldOnlyCommands : Prop :=
  (∀ (n : Nat) (x y z t u : List Char) (i j k : Nat) (v w : Int) (c : Char) (cs : List Char),
    unsignedNumber x = .ok i → unsignedNumber y = .ok j → unsignedNumber z = .ok k →
    WritesInteger t v → WritesInteger u w →
    asmTokens n [word "TICK", word "a", .equals, .name x, .comma, word "b", .equals, .name y, .comma, word "btn", .equals,
        .name z] =
      onlyIf (i < 2 ∧ j < 2 ∧ k < 2) [.tick (decide (k = 1)) (decide (i = 1)) (decide (j = 1))] ∧
    asmTokens n [word "WRDIG", .name x, .comma, .name y] =
      onlyIf (i < 16 ∧ j < 256) [.wrdig (BitVec.ofNat 4 i) (BitVec.ofNat 8 j)] ∧
    asmTokens n [word "RDDIG", .name x] = onlyIf (i < 16) [.rddig (BitVec.ofNat 4 i)] ∧
    asmTokens n [word "WRCHR", .name x, .comma, .quoted c] =
      onlyIf (i < 16 ∧ c.toNat < 256) [.wrchr (BitVec.ofNat 4 i) false false (BitVec.ofNat 8 c.toNat)] ∧
    asmTokens n [word "WRCHR", .name x, .comma, .quoted c, .comma, word "dp"] =
      onlyIf (i < 16 ∧ c.toNat < 256) [.wrchr (BitVec.ofNat 4 i) false true (BitVec.ofNat 8 c.toNat)] ∧
    asmTokens n [word "WRCHR", .name x, .comma, word "ERR"] =
      onlyIf (i < 16) [.wrchr (BitVec.ofNat 4 i) true false 0x00#8] ∧
    asmTokens n [word "WRCHR", .name x, .comma, word "ERR", .comma, word "dp"] =
      onlyIf (i < 16) [.wrchr (BitVec.ofNat 4 i) true true 0x00#8] ∧
    asmTokens n [word "SETLO", .name t] = onlyIf (-32768 ≤ v ∧ v ≤ 32767) [.setlo (BitVec.ofInt 16 v)] ∧
    asmTokens n [word "SETHI", .name t] = onlyIf (-32768 ≤ v ∧ v ≤ 32767) [.sethi (BitVec.ofInt 16 v)] ∧
    asmTokens n [word "HEVAL", .name t] = onlyIf (-32768 ≤ v ∧ v ≤ 32767) [.heval false (BitVec.ofInt 16 v)] ∧
    asmTokens n [word "HEVAL", .name t, .comma, word "fault"] =
      onlyIf (-32768 ≤ v ∧ v ≤ 32767) [.heval true (BitVec.ofInt 16 v)] ∧
    asmTokens n [word "RDREG", .name x] = onlyIf (i < 10) [.rdreg (BitVec.ofNat 4 i)] ∧
    asmTokens n [word "TICKPH", .name x] = onlyIf (i < 4) [.tick true (i.testBit 1) (i.testBit 0)] ∧
    asmTokens n [word "TICKPH", .name x, .comma, word "btn", .equals, .name y] =
      onlyIf (i < 4 ∧ j < 2) [.tick (decide (j = 1)) (i.testBit 1) (i.testBit 0)] ∧
    asmTokens n [word "SETTH", .name t, .comma, .name u] =
      onlyIf ((-32768 ≤ v ∧ v ≤ 32767) ∧ (-32768 ≤ w ∧ w ≤ 32767)) [.setlo (BitVec.ofInt 16 v), .sethi (BitVec.ofInt 16 w)] ∧
    asmTokens n [word "PUTS", .name x, .comma, .text cs] =
      onlyIf (i < 16 ∧ i + cs.length ≤ n ∧ ∀ d ∈ cs, d.toNat < 256)
        ((cs.zipIdx i).map (fun q => .wrchr (BitVec.ofNat 4 q.2) false false (BitVec.ofNat 8 q.1.toNat)))) ∧
  ∀ (n : Nat) (ls : List (List Char)) (ws : List Word), assemble n ls = .ok ws →
    ∀ w ∈ ws, ∃ i : Instr, decode w i.port = .ok i ∧ ∀ sel, i = .rdreg sel → sel.toNat ≤ 9
end

