-- ==== Sys2Proof/Laws/Assembler.lean ====
section
/-! SUPPORT. What each operand of the assembler gives for a number of any size: the value where it fits its field, and an
out-of-range error where it does not (30_encoding.md R85, R86). -/

namespace Sys2Proof.Machine

theorem natBelow_number (bound : Nat) {cs : List Char} {k : Nat} (h : unsignedNumber cs = .ok k) :
    natBelow bound cs = if k < bound then .ok k else .error .outOfRange := by
  unfold natBelow; rw [h]

/-- A number an operand accepts is below its bound. -/
theorem natBelow_lt {bound : Nat} {cs : List Char} {k : Nat} (h : natBelow bound cs = .ok k) : k < bound := by
  unfold natBelow at h
  split at h
  · split at h
    · cases h; assumption
    · cases h
  · cases h

theorem bitOperand_number {cs : List Char} {k : Nat} (h : unsignedNumber cs = .ok k) :
    bitOperand cs = if k < 2 then .ok (decide (k = 1)) else .error .outOfRange := by
  unfold bitOperand; rw [natBelow_number 2 h]; split <;> rfl

theorem indexOperand_number {cs : List Char} {k : Nat} (h : unsignedNumber cs = .ok k) :
    indexOperand cs = if k < 16 then .ok (BitVec.ofNat 4 k) else .error .outOfRange := by
  unfold indexOperand; rw [natBelow_number 16 h]; split <;> rfl

/-- A minus sign starts no number without a sign. -/
theorem unsignedNumber_minus (cs : List Char) : ∀ k, unsignedNumber ('-' :: cs) ≠ .ok k := by
  intro k h
  simp [unsignedNumber, digits, digitsFrom, digitValue] at h

theorem temperature_integer {t : List Char} {v : Int} (h : WritesInteger t v) :
    temperature t = if -32768 ≤ v ∧ v ≤ 32767 then .ok (BitVec.ofInt 16 v) else .error .outOfRange := by
  rcases h with ⟨k, hk, rfl⟩ | ⟨cs, k, hk, rfl, rfl⟩
  · have e : temperature t = match unsignedNumber t with
        | .ok v => if v ≤ 32767 then .ok (BitVec.ofNat 16 v) else .error .outOfRange
        | .error e => .error e := by
      unfold temperature
      split
      · exact absurd hk (unsignedNumber_minus _ _)
      · rfl
    rw [e, hk]
    by_cases h : k ≤ 32767
    · have h2 : -32768 ≤ (k : Int) ∧ (k : Int) ≤ 32767 := by omega
      simp only [h, h2, if_true, and_self]; simp
    · have h2 : ¬ (-32768 ≤ (k : Int) ∧ (k : Int) ≤ 32767) := by omega
      simp only [h, h2, if_false]
  · show (match unsignedNumber cs with
      | .ok v => if v ≤ 32768 then (.ok (BitVec.ofInt 16 (-(v : Int))) : Except AsmError Half) else .error .outOfRange
      | .error e => .error e) = _
    rw [hk]
    by_cases h : k ≤ 32768
    · have h2 : -32768 ≤ -(k : Int) ∧ -(k : Int) ≤ 32767 := by omega
      simp only [h, h2, if_true, and_self]
    · have h2 : ¬ (-32768 ≤ -(k : Int) ∧ -(k : Int) ≤ 32767) := by omega
      simp only [h, h2, if_false]

/-- No register name is a number, so a number is a register operand exactly below ten. -/
theorem registerOperand_number {cs : List Char} {k : Nat} (h : unsignedNumber cs = .ok k) :
    registerOperand cs = if k < 10 then .ok (BitVec.ofNat 4 k) else .error .outOfRange := by
  have none_found : registerNames.findIdx? (fun r => r.toList == cs) = none := by
    rw [List.findIdx?_eq_none_iff]
    intro r hr
    by_contra hc
    have hc : r.toList = cs := by simpa using hc
    subst hc
    have all : registerNames.all (fun r => match unsignedNumber r.toList with
      | .ok _ => false
      | .error _ => true) = true := by decide
    have := List.all_eq_true.mp all r hr
    rw [h] at this
    cases this
  unfold registerOperand
  rw [none_found, natBelow_number 10 h]
  show Except.map _ _ = _
  split <;> rfl

/-- A register operand, name or number, is at most nine. -/
theorem registerOperand_le {cs : List Char} {sel : BitVec 4} (h : registerOperand cs = .ok sel) : sel.toNat ≤ 9 := by
  unfold registerOperand at h
  split at h
  · next k hk =>
    have hk : k < 10 := (List.findIdx?_eq_some_iff_findIdx_eq.mp hk).1
    cases h
    simp
    omega
  · cases hx : natBelow 10 cs with
    | error e => rw [hx] at h; cases h
    | ok v =>
      rw [hx] at h
      cases h
      have := natBelow_lt hx
      simp
      omega

theorem charCode_small {c : Char} (h : c.toNat < 256) : charCode c = .ok (BitVec.ofNat 8 c.toNat) := by rw [charCode, if_pos h]

theorem charCode_large {c : Char} (h : ¬ c.toNat < 256) : charCode c = .error .outOfRange := by rw [charCode, if_neg h]

theorem putChars_cons (pos : Nat) (c : Char) (cs : List Char) :
    putChars pos (c :: cs) = match charCode c, putChars (pos + 1) cs with
      | .ok code, .ok is => .ok (.wrchr (BitVec.ofNat 4 pos) false false code :: is)
      | .error e, _ => .error e
      | _, .error e => .error e := rfl

/-- The expansion of PUTS where every character fits (30_encoding.md R86). -/
theorem putChars_small {cs : List Char} (pos : Nat) (h : ∀ d ∈ cs, d.toNat < 256) :
    putChars pos cs =
      .ok ((cs.zipIdx pos).map (fun q => .wrchr (BitVec.ofNat 4 q.2) false false (BitVec.ofNat 8 q.1.toNat))) := by
  induction cs generalizing pos with
  | nil => rfl
  | cons c cs ih =>
    rw [putChars_cons, charCode_small (h c (List.mem_cons_self ..)), ih _ (fun d hd => h d (List.mem_cons_of_mem _ hd)),
      List.zipIdx_cons, List.map_cons]

theorem putChars_large {cs : List Char} (pos : Nat) (h : ¬ ∀ d ∈ cs, d.toNat < 256) :
    putChars pos cs = .error .outOfRange := by
  induction cs generalizing pos with
  | nil => exact absurd (fun d hd => by cases hd) h
  | cons c cs ih =>
    rw [putChars_cons]
    by_cases hc : c.toNat < 256
    · rw [charCode_small hc, ih]
      intro h2
      apply h
      intro d hd
      rcases List.mem_cons.mp hd with rfl | hd
      · exact hc
      · exact h2 d hd
    · rw [charCode_large hc]

end Sys2Proof.Machine
end

