-- ==== Sys2Proof/Laws/State.lean ====
section
/-! SUPPORT. What every field of the state is after each shared update: one lemma per field per update. -/

namespace Sys2Proof.Machine

/-! ### respond -/

@[simp] theorem respond_cfg (p : Port) (st : Status) (v : Half) (s : State) : (respond p st v s).cfg = s.cfg := rfl
@[simp] theorem respond_idx (p : Port) (st : Status) (v : Half) (s : State) : (respond p st v s).idx = s.idx := rfl
@[simp] theorem respond_buf (p : Port) (st : Status) (v : Half) (s : State) : (respond p st v s).buf = s.buf := rfl
@[simp] theorem respond_en (p : Port) (st : Status) (v : Half) (s : State) : (respond p st v s).en = s.en := rfl
@[simp] theorem respond_segout (p : Port) (st : Status) (v : Half) (s : State) : (respond p st v s).segout = s.segout := rfl
@[simp] theorem respond_lastph (p : Port) (st : Status) (v : Half) (s : State) : (respond p st v s).lastph = s.lastph := rfl
@[simp] theorem respond_lastbtn (p : Port) (st : Status) (v : Half) (s : State) : (respond p st v s).lastbtn = s.lastbtn := rfl
@[simp] theorem respond_mbox (p : Port) (st : Status) (v : Half) (s : State) : (respond p st v s).mbox = s.mbox := rfl
@[simp] theorem respond_relay (p : Port) (st : Status) (v : Half) (s : State) : (respond p st v s).relay = s.relay := rfl
@[simp] theorem respond_tlow (p : Port) (st : Status) (v : Half) (s : State) : (respond p st v s).tlow = s.tlow := rfl
@[simp] theorem respond_thigh (p : Port) (st : Status) (v : Half) (s : State) : (respond p st v s).thigh = s.thigh := rfl
@[simp] theorem respond_trace (p : Port) (st : Status) (v : Half) (s : State) : (respond p st v s).trace = s.trace := rfl
@[simp] theorem respond_hostPort (p : Port) (st : Status) (v : Half) (s : State) : (respond p st v s).hostPort = s.hostPort := rfl
@[simp] theorem respond_tickPort (p : Port) (st : Status) (v : Half) (s : State) : (respond p st v s).tickPort = s.tickPort := rfl
@[simp] theorem respond_resetPin (p : Port) (st : Status) (v : Half) (s : State) : (respond p st v s).resetPin = s.resetPin := rfl
@[simp] theorem respond_responses (p : Port) (st : Status) (v : Half) (s : State) : (respond p st v s).responses = s.responses ++ [{ port := p, word := responseWord st v }] := rfl
@[simp] theorem respond_turn (p : Port) (st : Status) (v : Half) (s : State) : (respond p st v s).turn = s.turn := rfl

/-! ### raise -/

@[simp] theorem raise_cfg (p : Port) (st : Status) (s : State) : (raise p st s).cfg = s.cfg := rfl
@[simp] theorem raise_idx (p : Port) (st : Status) (s : State) : (raise p st s).idx = s.idx := rfl
@[simp] theorem raise_buf (p : Port) (st : Status) (s : State) : (raise p st s).buf = s.buf := rfl
@[simp] theorem raise_en (p : Port) (st : Status) (s : State) : (raise p st s).en = s.en := rfl
@[simp] theorem raise_segout (p : Port) (st : Status) (s : State) : (raise p st s).segout = s.segout := rfl
@[simp] theorem raise_lastph (p : Port) (st : Status) (s : State) : (raise p st s).lastph = s.lastph := rfl
@[simp] theorem raise_lastbtn (p : Port) (st : Status) (s : State) : (raise p st s).lastbtn = s.lastbtn := rfl
@[simp] theorem raise_mbox (p : Port) (st : Status) (s : State) : (raise p st s).mbox = s.mbox := rfl
@[simp] theorem raise_relay (p : Port) (st : Status) (s : State) : (raise p st s).relay = s.relay := rfl
@[simp] theorem raise_tlow (p : Port) (st : Status) (s : State) : (raise p st s).tlow = s.tlow := rfl
@[simp] theorem raise_thigh (p : Port) (st : Status) (s : State) : (raise p st s).thigh = s.thigh := rfl
@[simp] theorem raise_trace (p : Port) (st : Status) (s : State) : (raise p st s).trace = s.trace := rfl
@[simp] theorem raise_hostPort (p : Port) (st : Status) (s : State) : (raise p st s).hostPort = s.hostPort := rfl
@[simp] theorem raise_tickPort (p : Port) (st : Status) (s : State) : (raise p st s).tickPort = s.tickPort := rfl
@[simp] theorem raise_resetPin (p : Port) (st : Status) (s : State) : (raise p st s).resetPin = s.resetPin := rfl
@[simp] theorem raise_responses (p : Port) (st : Status) (s : State) : (raise p st s).responses = s.responses ++ [{ port := p, word := responseWord st 0#16 }] := rfl
@[simp] theorem raise_turn (p : Port) (st : Status) (s : State) : (raise p st s).turn = s.turn := rfl

/-! ### emit -/

@[simp] theorem emit_cfg (e : OutEvent) (s : State) : (emit e s).cfg = s.cfg := rfl
@[simp] theorem emit_idx (e : OutEvent) (s : State) : (emit e s).idx = s.idx := rfl
@[simp] theorem emit_buf (e : OutEvent) (s : State) : (emit e s).buf = s.buf := rfl
@[simp] theorem emit_en (e : OutEvent) (s : State) : (emit e s).en = s.en := rfl
@[simp] theorem emit_segout (e : OutEvent) (s : State) : (emit e s).segout = s.segout := rfl
@[simp] theorem emit_lastph (e : OutEvent) (s : State) : (emit e s).lastph = s.lastph := rfl
@[simp] theorem emit_lastbtn (e : OutEvent) (s : State) : (emit e s).lastbtn = s.lastbtn := rfl
@[simp] theorem emit_mbox (e : OutEvent) (s : State) : (emit e s).mbox = s.mbox := rfl
@[simp] theorem emit_relay (e : OutEvent) (s : State) : (emit e s).relay = s.relay := rfl
@[simp] theorem emit_tlow (e : OutEvent) (s : State) : (emit e s).tlow = s.tlow := rfl
@[simp] theorem emit_thigh (e : OutEvent) (s : State) : (emit e s).thigh = s.thigh := rfl
@[simp] theorem emit_trace (e : OutEvent) (s : State) : (emit e s).trace = s.trace ++ [e] := rfl
@[simp] theorem emit_hostPort (e : OutEvent) (s : State) : (emit e s).hostPort = s.hostPort := rfl
@[simp] theorem emit_tickPort (e : OutEvent) (s : State) : (emit e s).tickPort = s.tickPort := rfl
@[simp] theorem emit_resetPin (e : OutEvent) (s : State) : (emit e s).resetPin = s.resetPin := rfl
@[simp] theorem emit_responses (e : OutEvent) (s : State) : (emit e s).responses = s.responses := rfl
@[simp] theorem emit_turn (e : OutEvent) (s : State) : (emit e s).turn = s.turn := rfl

/-! ### writeDigit -/

@[simp] theorem writeDigit_cfg (i : BitVec 4) (b : Byte) (s : State) : (writeDigit i b s).cfg = s.cfg := rfl
@[simp] theorem writeDigit_idx (i : BitVec 4) (b : Byte) (s : State) : (writeDigit i b s).idx = s.idx := rfl
@[simp] theorem writeDigit_buf (i : BitVec 4) (b : Byte) (s : State) : (writeDigit i b s).buf = Memory.write s.buf i.toNat b := rfl
@[simp] theorem writeDigit_en (i : BitVec 4) (b : Byte) (s : State) : (writeDigit i b s).en = s.en := rfl
@[simp] theorem writeDigit_segout (i : BitVec 4) (b : Byte) (s : State) : (writeDigit i b s).segout = s.segout := rfl
@[simp] theorem writeDigit_lastph (i : BitVec 4) (b : Byte) (s : State) : (writeDigit i b s).lastph = s.lastph := rfl
@[simp] theorem writeDigit_lastbtn (i : BitVec 4) (b : Byte) (s : State) : (writeDigit i b s).lastbtn = s.lastbtn := rfl
@[simp] theorem writeDigit_mbox (i : BitVec 4) (b : Byte) (s : State) : (writeDigit i b s).mbox = s.mbox := rfl
@[simp] theorem writeDigit_relay (i : BitVec 4) (b : Byte) (s : State) : (writeDigit i b s).relay = s.relay := rfl
@[simp] theorem writeDigit_tlow (i : BitVec 4) (b : Byte) (s : State) : (writeDigit i b s).tlow = s.tlow := rfl
@[simp] theorem writeDigit_thigh (i : BitVec 4) (b : Byte) (s : State) : (writeDigit i b s).thigh = s.thigh := rfl
@[simp] theorem writeDigit_trace (i : BitVec 4) (b : Byte) (s : State) : (writeDigit i b s).trace = s.trace := rfl
@[simp] theorem writeDigit_hostPort (i : BitVec 4) (b : Byte) (s : State) : (writeDigit i b s).hostPort = s.hostPort := rfl
@[simp] theorem writeDigit_tickPort (i : BitVec 4) (b : Byte) (s : State) : (writeDigit i b s).tickPort = s.tickPort := rfl
@[simp] theorem writeDigit_resetPin (i : BitVec 4) (b : Byte) (s : State) : (writeDigit i b s).resetPin = s.resetPin := rfl
@[simp] theorem writeDigit_responses (i : BitVec 4) (b : Byte) (s : State) : (writeDigit i b s).responses = s.responses := rfl
@[simp] theorem writeDigit_turn (i : BitVec 4) (b : Byte) (s : State) : (writeDigit i b s).turn = s.turn := rfl

/-! ### digitOff -/

@[simp] theorem digitOff_cfg (i : BitVec 4) (s : State) : (digitOff i s).cfg = s.cfg := rfl
@[simp] theorem digitOff_idx (i : BitVec 4) (s : State) : (digitOff i s).idx = s.idx := rfl
@[simp] theorem digitOff_buf (i : BitVec 4) (s : State) : (digitOff i s).buf = s.buf := rfl
@[simp] theorem digitOff_en (i : BitVec 4) (s : State) : (digitOff i s).en = lineOff s.en i := rfl
@[simp] theorem digitOff_segout (i : BitVec 4) (s : State) : (digitOff i s).segout = s.segout := rfl
@[simp] theorem digitOff_lastph (i : BitVec 4) (s : State) : (digitOff i s).lastph = s.lastph := rfl
@[simp] theorem digitOff_lastbtn (i : BitVec 4) (s : State) : (digitOff i s).lastbtn = s.lastbtn := rfl
@[simp] theorem digitOff_mbox (i : BitVec 4) (s : State) : (digitOff i s).mbox = s.mbox := rfl
@[simp] theorem digitOff_relay (i : BitVec 4) (s : State) : (digitOff i s).relay = s.relay := rfl
@[simp] theorem digitOff_tlow (i : BitVec 4) (s : State) : (digitOff i s).tlow = s.tlow := rfl
@[simp] theorem digitOff_thigh (i : BitVec 4) (s : State) : (digitOff i s).thigh = s.thigh := rfl
@[simp] theorem digitOff_trace (i : BitVec 4) (s : State) : (digitOff i s).trace = s.trace ++ [.digitOff i] := rfl
@[simp] theorem digitOff_hostPort (i : BitVec 4) (s : State) : (digitOff i s).hostPort = s.hostPort := rfl
@[simp] theorem digitOff_tickPort (i : BitVec 4) (s : State) : (digitOff i s).tickPort = s.tickPort := rfl
@[simp] theorem digitOff_resetPin (i : BitVec 4) (s : State) : (digitOff i s).resetPin = s.resetPin := rfl
@[simp] theorem digitOff_responses (i : BitVec 4) (s : State) : (digitOff i s).responses = s.responses := rfl
@[simp] theorem digitOff_turn (i : BitVec 4) (s : State) : (digitOff i s).turn = s.turn := rfl

/-! ### digitOn -/

@[simp] theorem digitOn_cfg (i : BitVec 4) (s : State) : (digitOn i s).cfg = s.cfg := rfl
@[simp] theorem digitOn_idx (i : BitVec 4) (s : State) : (digitOn i s).idx = s.idx := rfl
@[simp] theorem digitOn_buf (i : BitVec 4) (s : State) : (digitOn i s).buf = s.buf := rfl
@[simp] theorem digitOn_en (i : BitVec 4) (s : State) : (digitOn i s).en = lineOn s.en i := rfl
@[simp] theorem digitOn_segout (i : BitVec 4) (s : State) : (digitOn i s).segout = s.segout := rfl
@[simp] theorem digitOn_lastph (i : BitVec 4) (s : State) : (digitOn i s).lastph = s.lastph := rfl
@[simp] theorem digitOn_lastbtn (i : BitVec 4) (s : State) : (digitOn i s).lastbtn = s.lastbtn := rfl
@[simp] theorem digitOn_mbox (i : BitVec 4) (s : State) : (digitOn i s).mbox = s.mbox := rfl
@[simp] theorem digitOn_relay (i : BitVec 4) (s : State) : (digitOn i s).relay = s.relay := rfl
@[simp] theorem digitOn_tlow (i : BitVec 4) (s : State) : (digitOn i s).tlow = s.tlow := rfl
@[simp] theorem digitOn_thigh (i : BitVec 4) (s : State) : (digitOn i s).thigh = s.thigh := rfl
@[simp] theorem digitOn_trace (i : BitVec 4) (s : State) : (digitOn i s).trace = s.trace ++ [.digitOn i] := rfl
@[simp] theorem digitOn_hostPort (i : BitVec 4) (s : State) : (digitOn i s).hostPort = s.hostPort := rfl
@[simp] theorem digitOn_tickPort (i : BitVec 4) (s : State) : (digitOn i s).tickPort = s.tickPort := rfl
@[simp] theorem digitOn_resetPin (i : BitVec 4) (s : State) : (digitOn i s).resetPin = s.resetPin := rfl
@[simp] theorem digitOn_responses (i : BitVec 4) (s : State) : (digitOn i s).responses = s.responses := rfl
@[simp] theorem digitOn_turn (i : BitVec 4) (s : State) : (digitOn i s).turn = s.turn := rfl

/-! ### shiftOut -/

@[simp] theorem shiftOut_cfg (b : Byte) (s : State) : (shiftOut b s).cfg = s.cfg := rfl
@[simp] theorem shiftOut_idx (b : Byte) (s : State) : (shiftOut b s).idx = s.idx := rfl
@[simp] theorem shiftOut_buf (b : Byte) (s : State) : (shiftOut b s).buf = s.buf := rfl
@[simp] theorem shiftOut_en (b : Byte) (s : State) : (shiftOut b s).en = s.en := rfl
@[simp] theorem shiftOut_segout (b : Byte) (s : State) : (shiftOut b s).segout = b := rfl
@[simp] theorem shiftOut_lastph (b : Byte) (s : State) : (shiftOut b s).lastph = s.lastph := rfl
@[simp] theorem shiftOut_lastbtn (b : Byte) (s : State) : (shiftOut b s).lastbtn = s.lastbtn := rfl
@[simp] theorem shiftOut_mbox (b : Byte) (s : State) : (shiftOut b s).mbox = s.mbox := rfl
@[simp] theorem shiftOut_relay (b : Byte) (s : State) : (shiftOut b s).relay = s.relay := rfl
@[simp] theorem shiftOut_tlow (b : Byte) (s : State) : (shiftOut b s).tlow = s.tlow := rfl
@[simp] theorem shiftOut_thigh (b : Byte) (s : State) : (shiftOut b s).thigh = s.thigh := rfl
@[simp] theorem shiftOut_trace (b : Byte) (s : State) : (shiftOut b s).trace = s.trace ++ frame b := rfl
@[simp] theorem shiftOut_hostPort (b : Byte) (s : State) : (shiftOut b s).hostPort = s.hostPort := rfl
@[simp] theorem shiftOut_tickPort (b : Byte) (s : State) : (shiftOut b s).tickPort = s.tickPort := rfl
@[simp] theorem shiftOut_resetPin (b : Byte) (s : State) : (shiftOut b s).resetPin = s.resetPin := rfl
@[simp] theorem shiftOut_responses (b : Byte) (s : State) : (shiftOut b s).responses = s.responses := rfl
@[simp] theorem shiftOut_turn (b : Byte) (s : State) : (shiftOut b s).turn = s.turn := rfl

/-! ### driveRelay -/

@[simp] theorem driveRelay_cfg (v : Bool) (s : State) : (driveRelay v s).cfg = s.cfg := rfl
@[simp] theorem driveRelay_idx (v : Bool) (s : State) : (driveRelay v s).idx = s.idx := rfl
@[simp] theorem driveRelay_buf (v : Bool) (s : State) : (driveRelay v s).buf = s.buf := rfl
@[simp] theorem driveRelay_en (v : Bool) (s : State) : (driveRelay v s).en = s.en := rfl
@[simp] theorem driveRelay_segout (v : Bool) (s : State) : (driveRelay v s).segout = s.segout := rfl
@[simp] theorem driveRelay_lastph (v : Bool) (s : State) : (driveRelay v s).lastph = s.lastph := rfl
@[simp] theorem driveRelay_lastbtn (v : Bool) (s : State) : (driveRelay v s).lastbtn = s.lastbtn := rfl
@[simp] theorem driveRelay_mbox (v : Bool) (s : State) : (driveRelay v s).mbox = s.mbox := rfl
@[simp] theorem driveRelay_relay (v : Bool) (s : State) : (driveRelay v s).relay = v := rfl
@[simp] theorem driveRelay_tlow (v : Bool) (s : State) : (driveRelay v s).tlow = s.tlow := rfl
@[simp] theorem driveRelay_thigh (v : Bool) (s : State) : (driveRelay v s).thigh = s.thigh := rfl
@[simp] theorem driveRelay_trace (v : Bool) (s : State) : (driveRelay v s).trace = s.trace ++ [.relay v] := rfl
@[simp] theorem driveRelay_hostPort (v : Bool) (s : State) : (driveRelay v s).hostPort = s.hostPort := rfl
@[simp] theorem driveRelay_tickPort (v : Bool) (s : State) : (driveRelay v s).tickPort = s.tickPort := rfl
@[simp] theorem driveRelay_resetPin (v : Bool) (s : State) : (driveRelay v s).resetPin = s.resetPin := rfl
@[simp] theorem driveRelay_responses (v : Bool) (s : State) : (driveRelay v s).responses = s.responses := rfl
@[simp] theorem driveRelay_turn (v : Bool) (s : State) : (driveRelay v s).turn = s.turn := rfl

/-! ### advance -/

@[simp] theorem advance_cfg (s : State) : (advance s).cfg = s.cfg := rfl
@[simp] theorem advance_idx (s : State) : (advance s).idx = nextIndex s.cfg s.idx := rfl
@[simp] theorem advance_buf (s : State) : (advance s).buf = s.buf := rfl
@[simp] theorem advance_en (s : State) : (advance s).en = s.en := rfl
@[simp] theorem advance_segout (s : State) : (advance s).segout = s.segout := rfl
@[simp] theorem advance_lastph (s : State) : (advance s).lastph = s.lastph := rfl
@[simp] theorem advance_lastbtn (s : State) : (advance s).lastbtn = s.lastbtn := rfl
@[simp] theorem advance_mbox (s : State) : (advance s).mbox = s.mbox := rfl
@[simp] theorem advance_relay (s : State) : (advance s).relay = s.relay := rfl
@[simp] theorem advance_tlow (s : State) : (advance s).tlow = s.tlow := rfl
@[simp] theorem advance_thigh (s : State) : (advance s).thigh = s.thigh := rfl
@[simp] theorem advance_trace (s : State) : (advance s).trace = s.trace := rfl
@[simp] theorem advance_hostPort (s : State) : (advance s).hostPort = s.hostPort := rfl
@[simp] theorem advance_tickPort (s : State) : (advance s).tickPort = s.tickPort := rfl
@[simp] theorem advance_resetPin (s : State) : (advance s).resetPin = s.resetPin := rfl
@[simp] theorem advance_responses (s : State) : (advance s).responses = s.responses := rfl
@[simp] theorem advance_turn (s : State) : (advance s).turn = s.turn := rfl

/-! ### postEvent -/

@[simp] theorem postEvent_cfg (e : Event) (s : State) : (postEvent e s).cfg = s.cfg := rfl
@[simp] theorem postEvent_idx (e : Event) (s : State) : (postEvent e s).idx = s.idx := rfl
@[simp] theorem postEvent_buf (e : Event) (s : State) : (postEvent e s).buf = s.buf := rfl
@[simp] theorem postEvent_en (e : Event) (s : State) : (postEvent e s).en = s.en := rfl
@[simp] theorem postEvent_segout (e : Event) (s : State) : (postEvent e s).segout = s.segout := rfl
@[simp] theorem postEvent_lastph (e : Event) (s : State) : (postEvent e s).lastph = s.lastph := rfl
@[simp] theorem postEvent_lastbtn (e : Event) (s : State) : (postEvent e s).lastbtn = s.lastbtn := rfl
@[simp] theorem postEvent_mbox (e : Event) (s : State) : (postEvent e s).mbox = if e = .none then s.mbox else e := rfl
@[simp] theorem postEvent_relay (e : Event) (s : State) : (postEvent e s).relay = s.relay := rfl
@[simp] theorem postEvent_tlow (e : Event) (s : State) : (postEvent e s).tlow = s.tlow := rfl
@[simp] theorem postEvent_thigh (e : Event) (s : State) : (postEvent e s).thigh = s.thigh := rfl
@[simp] theorem postEvent_trace (e : Event) (s : State) : (postEvent e s).trace = s.trace := rfl
@[simp] theorem postEvent_hostPort (e : Event) (s : State) : (postEvent e s).hostPort = s.hostPort := rfl
@[simp] theorem postEvent_tickPort (e : Event) (s : State) : (postEvent e s).tickPort = s.tickPort := rfl
@[simp] theorem postEvent_resetPin (e : Event) (s : State) : (postEvent e s).resetPin = s.resetPin := rfl
@[simp] theorem postEvent_responses (e : Event) (s : State) : (postEvent e s).responses = s.responses := rfl
@[simp] theorem postEvent_turn (e : Event) (s : State) : (postEvent e s).turn = s.turn := rfl

/-! ### sample -/

@[simp] theorem sample_cfg (btn a b : Bool) (s : State) : (sample btn a b s).cfg = s.cfg := rfl
@[simp] theorem sample_idx (btn a b : Bool) (s : State) : (sample btn a b s).idx = s.idx := rfl
@[simp] theorem sample_buf (btn a b : Bool) (s : State) : (sample btn a b s).buf = s.buf := rfl
@[simp] theorem sample_en (btn a b : Bool) (s : State) : (sample btn a b s).en = s.en := rfl
@[simp] theorem sample_segout (btn a b : Bool) (s : State) : (sample btn a b s).segout = s.segout := rfl
@[simp] theorem sample_lastph (btn a b : Bool) (s : State) : (sample btn a b s).lastph = phasePair a b := rfl
@[simp] theorem sample_lastbtn (btn a b : Bool) (s : State) : (sample btn a b s).lastbtn = btn := rfl
@[simp] theorem sample_mbox (btn a b : Bool) (s : State) : (sample btn a b s).mbox = s.mbox := rfl
@[simp] theorem sample_relay (btn a b : Bool) (s : State) : (sample btn a b s).relay = s.relay := rfl
@[simp] theorem sample_tlow (btn a b : Bool) (s : State) : (sample btn a b s).tlow = s.tlow := rfl
@[simp] theorem sample_thigh (btn a b : Bool) (s : State) : (sample btn a b s).thigh = s.thigh := rfl
@[simp] theorem sample_trace (btn a b : Bool) (s : State) : (sample btn a b s).trace = s.trace := rfl
@[simp] theorem sample_hostPort (btn a b : Bool) (s : State) : (sample btn a b s).hostPort = s.hostPort := rfl
@[simp] theorem sample_tickPort (btn a b : Bool) (s : State) : (sample btn a b s).tickPort = s.tickPort := rfl
@[simp] theorem sample_resetPin (btn a b : Bool) (s : State) : (sample btn a b s).resetPin = s.resetPin := rfl
@[simp] theorem sample_responses (btn a b : Bool) (s : State) : (sample btn a b s).responses = s.responses := rfl
@[simp] theorem sample_turn (btn a b : Bool) (s : State) : (sample btn a b s).turn = s.turn := rfl

/-! ### applyReset -/

@[simp] theorem applyReset_cfg (s : State) : (applyReset s).cfg = s.cfg := rfl
@[simp] theorem applyReset_idx (s : State) : (applyReset s).idx = resetIndex s.cfg := rfl
@[simp] theorem applyReset_buf (s : State) : (applyReset s).buf = [] := rfl
@[simp] theorem applyReset_en (s : State) : (applyReset s).en = 0#16 := rfl
@[simp] theorem applyReset_segout (s : State) : (applyReset s).segout = 0x00#8 := rfl
@[simp] theorem applyReset_lastph (s : State) : (applyReset s).lastph = 0b00#2 := rfl
@[simp] theorem applyReset_lastbtn (s : State) : (applyReset s).lastbtn = false := rfl
@[simp] theorem applyReset_mbox (s : State) : (applyReset s).mbox = .none := rfl
@[simp] theorem applyReset_relay (s : State) : (applyReset s).relay = false := rfl
@[simp] theorem applyReset_tlow (s : State) : (applyReset s).tlow = 0x8000#16 := rfl
@[simp] theorem applyReset_thigh (s : State) : (applyReset s).thigh = 0x8000#16 := rfl
@[simp] theorem applyReset_trace (s : State) : (applyReset s).trace = s.trace ++ [.reset] := rfl
@[simp] theorem applyReset_hostPort (s : State) : (applyReset s).hostPort = s.hostPort := rfl
@[simp] theorem applyReset_tickPort (s : State) : (applyReset s).tickPort = s.tickPort := rfl
@[simp] theorem applyReset_resetPin (s : State) : (applyReset s).resetPin = false := rfl
@[simp] theorem applyReset_responses (s : State) : (applyReset s).responses = s.responses := rfl
@[simp] theorem applyReset_turn (s : State) : (applyReset s).turn = s.turn := rfl

/-! ### answered -/

@[simp] theorem answered_cfg (p : Port) (r : Word) (s : State) : (answered p r s).cfg = s.cfg := rfl
@[simp] theorem answered_idx (p : Port) (r : Word) (s : State) : (answered p r s).idx = s.idx := rfl
@[simp] theorem answered_buf (p : Port) (r : Word) (s : State) : (answered p r s).buf = s.buf := rfl
@[simp] theorem answered_en (p : Port) (r : Word) (s : State) : (answered p r s).en = s.en := rfl
@[simp] theorem answered_segout (p : Port) (r : Word) (s : State) : (answered p r s).segout = s.segout := rfl
@[simp] theorem answered_lastph (p : Port) (r : Word) (s : State) : (answered p r s).lastph = s.lastph := rfl
@[simp] theorem answered_lastbtn (p : Port) (r : Word) (s : State) : (answered p r s).lastbtn = s.lastbtn := rfl
@[simp] theorem answered_mbox (p : Port) (r : Word) (s : State) : (answered p r s).mbox = s.mbox := rfl
@[simp] theorem answered_relay (p : Port) (r : Word) (s : State) : (answered p r s).relay = s.relay := rfl
@[simp] theorem answered_tlow (p : Port) (r : Word) (s : State) : (answered p r s).tlow = s.tlow := rfl
@[simp] theorem answered_thigh (p : Port) (r : Word) (s : State) : (answered p r s).thigh = s.thigh := rfl
@[simp] theorem answered_trace (p : Port) (r : Word) (s : State) : (answered p r s).trace = s.trace := rfl
@[simp] theorem answered_hostPort (p : Port) (r : Word) (s : State) : (answered p r s).hostPort = s.hostPort := rfl
@[simp] theorem answered_tickPort (p : Port) (r : Word) (s : State) : (answered p r s).tickPort = s.tickPort := rfl
@[simp] theorem answered_resetPin (p : Port) (r : Word) (s : State) : (answered p r s).resetPin = s.resetPin := rfl
@[simp] theorem answered_responses (p : Port) (r : Word) (s : State) : (answered p r s).responses = s.responses ++ [{ port := p, word := r }] := rfl
@[simp] theorem answered_turn (p : Port) (r : Word) (s : State) : (answered p r s).turn = s.turn := rfl

end Sys2Proof.Machine
end

