-- ==== Sys2Proof/Laws/Display.lean ====
section
/-! SUPPORT. The digit sequencer and the digit index arithmetic: the next index, the index after reset, the mirrored position,
and what a multiplexer step leaves in every element it writes. -/

namespace Sys2Proof.Machine

/-- A number taken modulo N fits a digit index. -/
theorem digit_toNat {c : Config} (h : c.wf) (k : Nat) : (BitVec.ofNat 4 (k % c.n)).toNat = k % c.n ∧ k % c.n < c.n := by
  have h1 := h.1
  have h2 := h.2.1
  have h3 : k % c.n < c.n := Nat.mod_lt _ (by omega)
  simp
  omega

/-- `next(i)` as a number (41_display_multiplexer.md R120). -/
theorem nextIndex_toNat {c : Config} (h : c.wf) (i : BitVec 4) :
    (nextIndex c i).toNat = (i.toNat + c.step) % c.n ∧ (nextIndex c i).toNat < c.n := by
  have := digit_toNat h (i.toNat + c.step)
  simp only [nextIndex]; omega

/-- The reset value of IDX as a number (10_state.md R22). -/
theorem resetIndex_toNat {c : Config} (h : c.wf) :
    (resetIndex c).toNat = (c.n - c.step % c.n) % c.n ∧ (resetIndex c).toNat < c.n := by
  have := digit_toNat h (c.n - c.step % c.n)
  simp only [resetIndex]; omega

/-- The physical index of a logical position as a number (40_segment_encoder.md R108). -/
theorem phys_toNat {c : Config} {p : BitVec 4} (h : c.n ≤ 16) (hp : p.toNat < c.n) :
    (phys c p).toNat = if c.invert then c.n - 1 - p.toNat else p.toNat := by
  unfold phys
  cases c.invert <;> simp
  omega

/-- Everything a multiplexer step does (41_display_multiplexer.md R121). -/
theorem muxTick_spec (s : State) :
    muxTick s = { s with
      idx := nextIndex s.cfg s.idx
      en := lineOn (lineOff s.en s.idx) (nextIndex s.cfg s.idx)
      segout := Memory.read s.buf (nextIndex s.cfg s.idx).toNat
      trace := s.trace ++ (.digitOff s.idx ::
        (frame (Memory.read s.buf (nextIndex s.cfg s.idx).toNat) ++ [.digitOn (nextIndex s.cfg s.idx)])) } := by
  simp [muxTick, digitOff, digitOn, advance, shiftOut, emit, readDigit]

/-- Everything a decoder step does (42_quadrature_decoder.md R156). -/
theorem decTick_spec (btn a b : Bool) (s : State) :
    decTick btn a b s = { s with
      mbox := if tickEvent s btn a b = .none then s.mbox else tickEvent s btn a b
      lastph := phasePair a b
      lastbtn := btn } := rfl

/-- Everything HEVAL does to the relay and the trace (43_hysteresis_controller.md R184). -/
theorem execHeval_spec (fault : Bool) (v : Half) (s : State) : ∃ t : State, execHeval fault v s = .next t ∧
    t.relay = hyst v s.tlow s.thigh fault s.relay ∧ t.tlow = s.tlow ∧ t.thigh = s.thigh ∧
    t.trace = s.trace ++ [.relay t.relay] :=
  ⟨_, rfl, rfl, rfl, rfl, rfl⟩

end Sys2Proof.Machine
end

