-- ==== Sys2Proof/Laws/Encoding.lean ====
section
/-! SUPPORT. The fields of the words that `command` and `encode` make (30_encoding.md R71 to R74). -/

namespace Sys2Proof

/-- Every bit of a command word, from its fields (30_encoding.md R71). -/
theorem command_getLsbD (op sel : BitVec 4) (f1 f0 : Bool) (d : Half) (i : Nat) :
    (command op sel f1 f0 d).getLsbD i =
      if i < 16 then d.getLsbD i else if i = 16 then f0 else if i = 17 then f1 else if i < 24 then false
      else if i < 28 then sel.getLsbD (i - 24) else op.getLsbD (i - 28) := by
  simp only [command, BitVec.getLsbD_append, BitVec.getLsbD_zero]
  by_cases h0 : i < 16
  · simp only [if_pos h0]
  by_cases h1 : i = 16
  · subst h1; simp
  by_cases h2 : i = 17
  · subst h2; simp
  by_cases h3 : i < 24
  · simp (disch := omega) only [if_pos, if_neg]
  by_cases h4 : i < 28
  · simp (disch := omega) only [if_pos, if_neg]
    congr 1
  · simp (disch := omega) only [if_neg]
    congr 1


@[simp] theorem opField_command (op sel : BitVec 4) (f1 f0 : Bool) (d : Half) : opField (command op sel f1 f0 d) = op := by
  apply BitVec.eq_of_getLsbD_eq
  intro i hi
  simp only [opField, BitVec.getLsbD_extractLsb', command_getLsbD]
  simp (disch := omega) only [if_neg, hi, decide_true, Bool.true_and]
  congr 1; omega

@[simp] theorem selField_command (op sel : BitVec 4) (f1 f0 : Bool) (d : Half) : selField (command op sel f1 f0 d) = sel := by
  apply BitVec.eq_of_getLsbD_eq
  intro i hi
  simp only [selField, BitVec.getLsbD_extractLsb', command_getLsbD]
  simp (disch := omega) only [if_neg, if_pos, hi, decide_true, Bool.true_and]
  congr 1; omega

@[simp] theorem dataField_command (op sel : BitVec 4) (f1 f0 : Bool) (d : Half) : dataField (command op sel f1 f0 d) = d := by
  apply BitVec.eq_of_getLsbD_eq
  intro i hi
  simp only [dataField, BitVec.getLsbD_extractLsb', command_getLsbD]
  simp [hi]

@[simp] theorem f1Field_command (op sel : BitVec 4) (f1 f0 : Bool) (d : Half) : f1Field (command op sel f1 f0 d) = f1 := by
  rw [f1Field, command_getLsbD]; simp

@[simp] theorem f0Field_command (op sel : BitVec 4) (f1 f0 : Bool) (d : Half) : f0Field (command op sel f1 f0 d) = f0 := by
  rw [f0Field, command_getLsbD]; simp

@[simp] theorem dataByte_command (op sel : BitVec 4) (f1 f0 : Bool) (d : Half) : dataByte (command op sel f1 f0 d) = d.extractLsb' 0 8 := by
  apply BitVec.eq_of_getLsbD_eq
  intro i hi
  simp only [dataByte, BitVec.getLsbD_extractLsb', command_getLsbD]
  simp (disch := omega) only [if_neg, if_pos, hi, decide_true, Bool.true_and, zero_add]

@[simp] theorem lowByte_append (b : Byte) : (0#8 ++ b).extractLsb' 0 8 = b := by
  apply BitVec.eq_of_getLsbD_eq
  intro i hi
  simp only [BitVec.getLsbD_extractLsb', BitVec.getLsbD_append]
  simp (disch := omega) [hi]

/-- The word of a command names that command. -/
theorem named_encode (i : Instr) : named (encode i) = some i := by
  cases i with
  | tick btn a b => revert btn a b; decide
  | _ => simp [encode, named]

/-- A word whose `rsv` bits are zero is the command word of its own fields (30_encoding.md R71). -/
theorem command_fields {w : Word} (h : w &&& 0x00FC0000#32 = 0#32) :
    command (opField w) (selField w) (f1Field w) (f0Field w) (dataField w) = w := by
  apply BitVec.eq_of_getLsbD_eq
  intro j hj
  have bit : ∀ k, (0x00FC0000#32).getLsbD k = true → w.getLsbD k = false := by
    intro k hk
    have := congrArg (fun x => x.getLsbD k) h
    simpa only [BitVec.getLsbD_and, hk, Bool.and_true, BitVec.getLsbD_zero] using this
  have bj := bit j
  clear bit h
  simp only [command_getLsbD, opField, selField, f1Field, f0Field, dataField, BitVec.getLsbD_extractLsb']
  interval_cases j <;> simp_all

/-- A field of a word is zero exactly where its mask takes no bit of the word. -/
theorem field_zero_iff (w : Word) (lo len : Nat) (m : Word) (hm : m = (BitVec.allOnes len).setWidth 32 <<< lo) :
    w.extractLsb' lo len = 0#len ↔ w &&& m = 0#32 := by
  subst hm
  constructor
  · intro h
    apply BitVec.eq_of_getLsbD_eq
    intro j hj
    by_cases hl : lo ≤ j ∧ j < lo + len
    · have := congrArg (fun x => x.getLsbD (j - lo)) h
      have e : lo + (j - lo) = j := by omega
      have e2 : j - lo < len := by omega
      simp [e, e2] at this
      simp [BitVec.getLsbD_and, this]
    · simp [BitVec.getLsbD_and]; intro _ _ _ ; omega
  · intro h
    apply BitVec.eq_of_getLsbD_eq
    intro j hj
    have := congrArg (fun x => x.getLsbD (lo + j)) h
    simp [BitVec.getLsbD_and] at this
    simp [hj]
    by_cases hb : lo + j < 32
    · by_contra hx; simp at hx; have := this hx hb; omega
    · apply BitVec.getLsbD_of_ge; omega

/-- What a decoded word says of the instruction: it is the one the word names, the port is its port, and no must-be-zero bit is
set (30_encoding.md R77). -/
theorem decode_ok {w : Word} {p : Port} {i : Instr} (h : decode w p = .ok i) :
    named w = some i ∧ p = i.port ∧ w &&& i.mbz = 0#32 := by
  unfold decode at h
  split at h
  · cases h
  · split at h
    · cases h
    split at h
    · cases h
    · cases h; simp_all

/-- A word names no instruction exactly where its opcode is reserved (30_encoding.md R75). -/
theorem named_none_iff (w : Word) : named w = none ↔ 10 ≤ (opField w).toNat := by
  unfold named
  split <;> simp_all
  omega

/-- The port of a named instruction is the tick port exactly for opcode 1 (60_exceptions.md R228). -/
theorem named_port {w : Word} {i : Instr} (h : named w = some i) : i.port = .tick ↔ opField w = 1#4 := by
  rw [← BitVec.toNat_inj]
  unfold named at h
  split at h <;> cases h <;> simp_all [Instr.port]

end Sys2Proof
end

