-- ==== Sys2Proof/Laws/Memory.lean ====
section
/-! SUPPORT. The digit space: a read after a write, the canonical form, and the indices that hold cells (20_memory.md R50). -/

namespace Sys2Proof.Machine

@[simp] theorem Memory.read_nil (a : Nat) : Memory.read [] a = blank := rfl

theorem Memory.read_cons (x : Host.Cell) (m : Memory) (a : Nat) :
    Memory.read (x :: m) a = if x.1 = a then x.2 else Memory.read m a := rfl

theorem Memory.mem_erase {x : Host.Cell} {m : Memory} {a : Nat} : x ∈ Memory.erase m a ↔ x ∈ m ∧ x.1 ≠ a := by
  simp [Memory.erase]

/-- An index with no cell reads blank. -/
theorem Memory.read_of_notMem {m : Memory} {a : Nat} (h : ∀ x ∈ m, x.1 ≠ a) : Memory.read m a = blank := by
  induction m with
  | nil => rfl
  | cons x m ih =>
    rw [Memory.read_cons, if_neg (h x (by simp)), ih (fun y hy => h y (by simp [hy]))]

theorem Memory.read_erase_same (m : Memory) (a : Nat) : Memory.read (Memory.erase m a) a = blank :=
  Memory.read_of_notMem (fun _ hx => (Memory.mem_erase.mp hx).2)

theorem Memory.read_erase_other {m : Memory} {a c : Nat} (h : c ≠ a) :
    Memory.read (Memory.erase m a) c = Memory.read m c := by
  induction m with
  | nil => rfl
  | cons x m ih =>
    rw [Memory.read_cons]
    by_cases hx : x.1 = a
    · rw [show Memory.erase (x :: m) a = Memory.erase m a by simp [Memory.erase, hx], ih, if_neg (by omega)]
    · rw [show Memory.erase (x :: m) a = x :: Memory.erase m a by simp [Memory.erase, hx], Memory.read_cons, ih]

theorem Memory.read_insert_other {m : Memory} {a c : Nat} (b : Byte) (h : c ≠ a) :
    Memory.read (Memory.insert a b m) c = Memory.read m c := by
  induction m with
  | nil => simp [Memory.insert, Memory.read, h.symm]
  | cons x m ih =>
    obtain ⟨k, v⟩ := x
    simp only [Memory.insert]
    split <;> simp [Memory.read, h.symm, ih]

theorem Memory.read_insert_same {m : Memory} {a : Nat} (b : Byte) (h : ∀ x ∈ m, x.1 ≠ a) :
    Memory.read (Memory.insert a b m) a = b := by
  induction m with
  | nil => simp [Memory.insert, Memory.read]
  | cons x m ih =>
    obtain ⟨k, v⟩ := x
    have hk : k ≠ a := h (k, v) (by simp)
    simp only [Memory.insert]
    split
    · simp [Memory.read]
    · simp [Memory.read, hk, ih (fun y hy => h y (by simp [hy]))]

/-- A read of the index just written gives the byte written. -/
theorem Memory.read_write_same (m : Memory) (a : Nat) (b : Byte) : Memory.read (Memory.write m a b) a = b := by
  unfold Memory.write
  split
  · next h => rw [h, Memory.read_erase_same]
  · exact Memory.read_insert_same b (fun _ hx => (Memory.mem_erase.mp hx).2)

/-- A write leaves every other index alone. -/
theorem Memory.read_write_other {m : Memory} {a c : Nat} (b : Byte) (h : c ≠ a) :
    Memory.read (Memory.write m a b) c = Memory.read m c := by
  unfold Memory.write
  split
  · exact Memory.read_erase_other h
  · rw [Memory.read_insert_other b h, Memory.read_erase_other h]

theorem Memory.mem_insert {x : Host.Cell} {m : Memory} {a : Nat} {b : Byte} :
    x ∈ Memory.insert a b m ↔ x = (a, b) ∨ x ∈ m := by
  induction m with
  | nil => simp [Memory.insert]
  | cons y m ih =>
    obtain ⟨k, v⟩ := y
    simp only [Memory.insert]
    split
    · simp
    · simp only [List.mem_cons, ih]
      tauto

/-- A cell of a written memory is the one written or an old one. -/
theorem Memory.mem_write {x : Host.Cell} {m : Memory} {a : Nat} {b : Byte} (h : x ∈ Memory.write m a b) :
    x = (a, b) ∨ x ∈ m := by
  unfold Memory.write at h
  split at h
  · exact .inr (Memory.mem_erase.mp h).1
  · rcases Memory.mem_insert.mp h with h | h
    · exact .inl h
    · exact .inr (Memory.mem_erase.mp h).1

theorem Memory.nil_wf : Memory.wf [] := by simp [Memory.wf]

theorem Memory.erase_wf {m : Memory} (a : Nat) (h : Memory.wf m) : Memory.wf (Memory.erase m a) :=
  ⟨h.1.filter _, fun x hx => h.2 x (Memory.mem_erase.mp hx).1⟩

theorem Memory.insert_wf {m : Memory} {a : Nat} {b : Byte} (hb : b ≠ blank) (ha : ∀ x ∈ m, x.1 ≠ a) (h : Memory.wf m) :
    Memory.wf (Memory.insert a b m) := by
  refine ⟨?_, fun x hx => ?_⟩
  · obtain ⟨hp, -⟩ := h
    induction m with
    | nil => simp [Memory.insert]
    | cons y m ih =>
      obtain ⟨k, v⟩ := y
      have hk : k ≠ a := ha (k, v) (by simp)
      obtain ⟨h1, h2⟩ := List.pairwise_cons.mp hp
      simp only [Memory.insert]
      split
      · next hlt =>
        refine List.pairwise_cons.mpr ⟨fun z hz => ?_, hp⟩
        rcases List.mem_cons.mp hz with hz | hz
        · simpa [hz] using hlt
        · exact lt_trans hlt (h1 z hz)
      · next hlt =>
        refine List.pairwise_cons.mpr ⟨fun z hz => ?_, ih (fun z hz => ha z (by simp [hz])) h2⟩
        rcases Memory.mem_insert.mp hz with hz | hz
        · subst hz; show k < a; omega
        · exact h1 z hz
  · rcases Memory.mem_insert.mp hx with hx | hx
    · simpa [hx] using hb
    · exact h.2 x hx

/-- A write keeps the canonical form. -/
theorem Memory.write_wf {m : Memory} (a : Nat) (b : Byte) (h : Memory.wf m) : Memory.wf (Memory.write m a b) := by
  unfold Memory.write
  split
  · exact Memory.erase_wf a h
  · next hb => exact Memory.insert_wf hb (fun _ hx => (Memory.mem_erase.mp hx).2) (Memory.erase_wf a h)

/-- The memory right after reset has the canonical form. -/
theorem reset_buf_wf : Memory.wf State.reset.buf := Memory.nil_wf

end Sys2Proof.Machine
end

