-- ==== Sys2Proof/Laws/PerInstr.lean ====
section
/-! SUPPORT. The family EncodeKeepsReservedZero, one lemma per constructor of Instr: the word of a command has no must-be-zero
bit set (30_encoding.md R73). -/

namespace Sys2Proof.Laws

/-- The word of the command has no bit of its must-be-zero mask (30_encoding.md R73). -/
def EncodeKeepsReservedZero.Statement (i : Instr) : Prop := encode i &&& i.mbz = 0#32

theorem EncodeKeepsReservedZero.nop : EncodeKeepsReservedZero.Statement .nop := by
  unfold EncodeKeepsReservedZero.Statement; decide

theorem EncodeKeepsReservedZero.tick (btn a b : Bool) : EncodeKeepsReservedZero.Statement (.tick btn a b) := by
  revert btn a b; unfold EncodeKeepsReservedZero.Statement; decide

theorem EncodeKeepsReservedZero.wrdig (sel : BitVec 4) (byte : Byte) :
    EncodeKeepsReservedZero.Statement (.wrdig sel byte) := by
  apply BitVec.eq_of_getLsbD_eq
  intro i hi
  simp only [encode, Instr.mbz, BitVec.getLsbD_and, command_getLsbD, BitVec.getLsbD_append]
  interval_cases i <;> simp

theorem EncodeKeepsReservedZero.rddig (sel : BitVec 4) : EncodeKeepsReservedZero.Statement (.rddig sel) := by
  revert sel; unfold EncodeKeepsReservedZero.Statement; decide

theorem EncodeKeepsReservedZero.wrchr (sel : BitVec 4) (e dp : Bool) (code : Byte) :
    EncodeKeepsReservedZero.Statement (.wrchr sel e dp code) := by
  apply BitVec.eq_of_getLsbD_eq
  intro i hi
  simp only [encode, Instr.mbz, BitVec.getLsbD_and, command_getLsbD, BitVec.getLsbD_append]
  interval_cases i <;> simp

theorem EncodeKeepsReservedZero.getevt : EncodeKeepsReservedZero.Statement .getevt := by
  unfold EncodeKeepsReservedZero.Statement; decide

theorem EncodeKeepsReservedZero.setlo (threshold : Half) : EncodeKeepsReservedZero.Statement (.setlo threshold) := by
  apply BitVec.eq_of_getLsbD_eq
  intro i hi
  simp only [encode, Instr.mbz, BitVec.getLsbD_and, command_getLsbD]
  interval_cases i <;> simp

theorem EncodeKeepsReservedZero.sethi (threshold : Half) : EncodeKeepsReservedZero.Statement (.sethi threshold) := by
  apply BitVec.eq_of_getLsbD_eq
  intro i hi
  simp only [encode, Instr.mbz, BitVec.getLsbD_and, command_getLsbD]
  interval_cases i <;> simp

theorem EncodeKeepsReservedZero.heval (fault : Bool) (temperature : Half) :
    EncodeKeepsReservedZero.Statement (.heval fault temperature) := by
  apply BitVec.eq_of_getLsbD_eq
  intro i hi
  simp only [encode, Instr.mbz, BitVec.getLsbD_and, command_getLsbD]
  interval_cases i <;> simp

theorem EncodeKeepsReservedZero.rdreg (sel : BitVec 4) : EncodeKeepsReservedZero.Statement (.rdreg sel) := by
  revert sel; unfold EncodeKeepsReservedZero.Statement; decide

end Sys2Proof.Laws
end

