-- ==== Sys2Proof/Laws/Ports.lean ====
section
/-! SUPPORT. What taking a word and making a step can do, said once: the frame of a command and the inversion of a step. -/

namespace Sys2Proof.Machine

/-- What no command touches: the configuration, the words that wait, the reset input and the model's counter. -/
theorem exec_keeps {i : Instr} {s t : State} (h : exec i s = .next t) :
    t.cfg = s.cfg ∧ t.hostPort = s.hostPort ∧ t.tickPort = s.tickPort ∧ t.resetPin = s.resetPin ∧ t.turn = s.turn := by
  cases i <;> simp only [exec, execNop, execTick, execWrdig, execRddig, execWrchr, execGetevt, execSetlo, execSethi,
    execHeval, execRdreg] at h
  all_goals (try split at h)
  all_goals (cases h; simp [muxTick, decTick])

/-- The same for a word performed on a port, decoded or not. -/
theorem perform_keeps {p : Port} {w : Word} {s t : State} (h : perform p w s = .next t) :
    t.cfg = s.cfg ∧ t.hostPort = s.hostPort ∧ t.tickPort = s.tickPort ∧ t.resetPin = s.resetPin ∧ t.turn = s.turn := by
  unfold perform at h
  split at h
  · cases h; exact ⟨rfl, rfl, rfl, rfl, rfl⟩
  · exact exec_keeps h

/-- Taking a word changes the waiting words and the model's counter only. -/
theorem takeWord_frame {pick p : Port} {w : Word} {s u : State} (h : takeWord pick s = some (p, w, u)) :
    u = { s with hostPort := u.hostPort, tickPort := u.tickPort, turn := u.turn } := by
  unfold takeWord at h
  split at h
  · cases h
  · cases h; rfl
  · cases h; rfl
  · split at h <;> cases h <;> rfl

/-- What a step can do: reset, nothing, or one word performed in a state that differs in the waiting words and the counter. -/
theorem stepWith_cases {pick : Port} {s t : State} (h : stepWith pick s = .next t) :
    (s.resetPin = true ∧ t = applyReset s) ∨
    (s.resetPin = false ∧ takeWord pick s = none ∧ t = s) ∨
    (s.resetPin = false ∧ ∃ p w u, takeWord pick s = some (p, w, u) ∧ perform p w u = .next t ∧
      u = { s with hostPort := u.hostPort, tickPort := u.tickPort, turn := u.turn }) := by
  unfold stepWith at h
  split at h
  · next hr => cases h; exact .inl ⟨hr, rfl⟩
  · next hr =>
    have hr : s.resetPin = false := by simpa using hr
    split at h
    · next hk => cases h; exact .inr (.inl ⟨hr, hk, rfl⟩)
    · next p w u hk => exact .inr (.inr ⟨hr, p, w, u, hk, h, takeWord_frame hk⟩)

end Sys2Proof.Machine
end

