-- ==== Sys2Proof/Laws/Responses.lean ====
section
/-! SUPPORT. The response word field by field, and what performing a word that does or does not decode answers. -/

namespace Sys2Proof.Machine

/-- The status codes are 0 to 4 (60_exceptions.md R220). -/
theorem statusCode_le (st : Status) : (statusCode st).toNat ≤ 4 := by cases st <;> decide

/-- Status, zeros and value of a response word (30_encoding.md R80). -/
theorem responseWord_fields (st : Status) (v : Half) :
    (responseWord st v).extractLsb' 28 4 = statusCode st ∧ (responseWord st v).extractLsb' 16 12 = 0#12 ∧
      (responseWord st v).extractLsb' 0 16 = v := by
  unfold responseWord
  refine ⟨?_, ?_, ?_⟩ <;>
  · apply BitVec.eq_of_getLsbD_eq
    intro j hj
    simp only [BitVec.getLsbD_extractLsb', BitVec.getLsbD_append]
    first
      | (rw [if_neg (by omega), if_neg (by omega)]; simp only [hj, decide_true, Bool.true_and]; congr 1; omega)
      | (rw [if_neg (by omega), if_pos (by omega)]; simp)
      | (rw [if_pos (by omega)]; simp [hj])

/-- A response of status OK is its value, zero-extended (30_encoding.md R80). -/
theorem responseWord_ok (v : Half) : responseWord .ok v = 0#16 ++ v := by
  apply BitVec.eq_of_toNat_eq; simp [responseWord, statusCode]

/-- A response of value 0 is its status alone (30_encoding.md R80). -/
theorem responseWord_zero (st : Status) : responseWord st 0#16 = statusCode st ++ 0#28 := by
  cases st <;> decide

/-- `raise` appends the status with value 0 and changes nothing else (60_exceptions.md R221). -/
theorem raise_eq_answered (p : Port) (st : Status) (s : State) : raise p st s = answered p (statusCode st ++ 0#28) s := by
  simp only [raise, respond, answered, responseWord_zero]

/-- A word that does not decode answers its status only (30_encoding.md R77). -/
theorem perform_of_error {w : Word} {p : Port} {st : Status} (h : decode w p = .error st) (s : State) :
    perform p w s = .next (answered p (statusCode st ++ 0#28) s) := by
  simp only [perform, h, raise_eq_answered]

/-- A word that decodes performs its command (30_encoding.md R77). -/
theorem perform_of_ok {w : Word} {p : Port} {i : Instr} (h : decode w p = .ok i) (s : State) :
    perform p w s = exec i s := by
  simp only [perform, h]

end Sys2Proof.Machine
end

