-- ==== Sys2Proof/Laws/Segments.lean ====
section
/-! SUPPORT. The segment bytes bit by bit, for every legal segment map: where the bits of a segment set, of the decimal point
and of an inverted byte stand. -/

namespace Sys2Proof.Machine

/-- A segment stands at one of the bits 1 to 7 (00_scope.md R7). -/
theorem pos_range {m : SegMap} (h : m.wf) (s : Segment) : 1 ≤ m.pos s ∧ m.pos s ≤ 7 := by
  have := h.2
  simp at this
  cases s <;> simp [SegMap.pos] <;> omega

/-- Two segments never share a bit (00_scope.md R7). -/
theorem pos_inj {m : SegMap} (h : m.wf) (s t : Segment) : m.pos s = m.pos t ↔ s = t := by
  refine ⟨fun e => ?_, fun e => by rw [e]⟩
  have hn := h.1
  rw [← show allSegments.map m.pos = [m.a, m.b, m.c, m.d, m.e, m.f, m.g] from rfl] at hn
  exact List.inj_on_of_nodup_map hn (by cases s <;> decide) (by cases t <;> decide) e

/-- Every bit from 1 to 7 is some segment's (00_scope.md R7). -/
theorem pos_surj {m : SegMap} (h : m.wf) {k : Nat} (h1 : 1 ≤ k) (h2 : k ≤ 7) : ∃ s, m.pos s = k := by
  by_contra hc
  obtain ⟨hn, hr⟩ := h
  have hne : ∀ x ∈ [m.a, m.b, m.c, m.d, m.e, m.f, m.g], x ≠ k := by
    intro x hx e
    rw [← show allSegments.map m.pos = [m.a, m.b, m.c, m.d, m.e, m.f, m.g] from rfl] at hx
    obtain ⟨s, -, hs⟩ := List.mem_map.mp hx
    exact hc ⟨s, by rw [hs, e]⟩
  have hs : [m.a, m.b, m.c, m.d, m.e, m.f, m.g].Subperm ((List.range' 1 7).erase k) := by
    apply List.subperm_of_subset hn
    intro x hx
    have hx' := hr x hx
    exact (List.mem_erase_of_ne (hne x hx)).mpr (by simp [List.mem_range'_1]; omega)
  have hl := hs.length_le
  rw [List.length_erase_of_mem (by simp [List.mem_range'_1]; omega)] at hl
  simp at hl

theorem segBit_getLsbD {m : SegMap} (h : m.wf) (s : Segment) {k : Nat} (hk : k < 8) :
    (segBit m s).getLsbD k = decide (k = m.pos s) := by
  have := pos_range h s
  simp [segBit, hk]
  rw [Bool.eq_iff_iff]
  simp
  omega

/-- The bits of a byte into which the bits of some segments are ored. -/
theorem foldl_segBit_getLsbD {m : SegMap} (h : m.wf) (q : Segment → Bool) (r : Segment → Segment) {k : Nat} (hk : k < 8)
    (l : List Segment) (x : Byte) :
    (l.foldl (fun y s => if q s then y ||| segBit m (r s) else y) x).getLsbD k =
      (x.getLsbD k || l.any (fun s => q s && decide (k = m.pos (r s)))) := by
  induction l generalizing x with
  | nil => simp
  | cons s l ih =>
    rw [List.foldl_cons, ih, List.any_cons]
    cases q s <;> simp only [if_true, Bool.true_and, Bool.false_and, Bool.false_or, BitVec.getLsbD_or, segBit_getLsbD h _ hk,
      Bool.or_assoc]
    simp

/-- The bits of `byte(S)` (40_segment_encoder.md R100). -/
theorem byteOf_getLsbD {m : SegMap} (h : m.wf) (S : SegSet) {k : Nat} (hk : k < 8) :
    (byteOf m S).getLsbD k = allSegments.any (fun s => hasSeg S s && decide (k = m.pos s)) :=
  (foldl_segBit_getLsbD h (hasSeg S) id hk allSegments 0#8).trans (by simp)

/-- The bit of a segment in `byte(S)` says whether the segment is in S (40_segment_encoder.md R100). -/
theorem byteOf_pos {m : SegMap} (h : m.wf) (S : SegSet) (s : Segment) : (byteOf m S).getLsbD (m.pos s) = hasSeg S s := by
  have hr := pos_range h s
  rw [byteOf_getLsbD h S (by omega)]
  simp only [pos_inj h, allSegments]
  cases s <;> simp

/-- `byte(S)` leaves the decimal point dark (40_segment_encoder.md R100). -/
theorem byteOf_zero {m : SegMap} (h : m.wf) (S : SegSet) : (byteOf m S).getLsbD 0 = false := by
  rw [byteOf_getLsbD h S (by omega)]
  refine List.any_eq_false.mpr (fun s _ => ?_)
  have := (pos_range h s).1
  simp
  intro _
  omega

/-- The bits of an inverted byte (40_segment_encoder.md R107). -/
theorem invertByte_getLsbD {m : SegMap} (h : m.wf) (x : Byte) {k : Nat} (hk : k < 8) :
    (invertByte m x).getLsbD k =
      ((x &&& 1#8).getLsbD k || allSegments.any (fun s => x.getLsbD (m.pos s) && decide (k = m.pos (rot s)))) :=
  foldl_segBit_getLsbD h (fun s => x.getLsbD (m.pos s)) rot hk allSegments _

/-- Two bytes with the same decimal point and the same segments are equal. -/
theorem byte_ext {m : SegMap} (h : m.wf) {x y : Byte} (h0 : x.getLsbD 0 = y.getLsbD 0)
    (hs : ∀ s, x.getLsbD (m.pos s) = y.getLsbD (m.pos s)) : x = y := by
  apply BitVec.eq_of_getLsbD_eq
  intro k hk
  by_cases hz : k = 0
  · rw [hz, h0]
  · obtain ⟨s, rfl⟩ := pos_surj h (by omega : 1 ≤ k) (by omega)
    exact hs s

end Sys2Proof.Machine
end

