-- ==== Sys2Proof/Laws/Trace.lean ====
section
/-! SUPPORT. The output trace in pieces: the lines after one list of events and then another, a serial frame, and toggles. -/

namespace Sys2Proof.Machine

theorem linesAfter_append (a b : List OutEvent) : linesAfter (a ++ b) = b.foldl Lines.after (linesAfter a) := by
  simp [linesAfter]

/-- A serial frame leaves its byte shifted and latched, and no other line changed (41_display_multiplexer.md R122). -/
theorem foldl_frame (l : Lines) (b : Byte) : (frame b).foldl Lines.after l = { l with shifted := b, latched := b } := by
  have : ∀ x : Byte,
      [b.getLsbD 7, b.getLsbD 6, b.getLsbD 5, b.getLsbD 4, b.getLsbD 3, b.getLsbD 2, b.getLsbD 1, b.getLsbD 0].foldl
        (fun (y : Byte) v => (y <<< 1) ||| (BitVec.ofBool v).setWidth 8) x = b := by
    intro x
    apply BitVec.eq_of_getLsbD_eq
    intro k hk
    simp only [List.foldl_cons, List.foldl_nil, BitVec.getLsbD_or, BitVec.getLsbD_shiftLeft, BitVec.getLsbD_setWidth,
      BitVec.getLsbD_ofBool]
    interval_cases k <;> simp
  have hx := this l.shifted
  simp only [List.foldl_cons, List.foldl_nil] at hx
  simp only [frame, List.foldl_cons, List.foldl_nil, Lines.after]
  rw [hx]

/-- No event of a frame touches the enable lines. -/
theorem foldl_frame_start_enable (l : Lines) (b : Byte) {t : List OutEvent} (h : t <+: frame b) :
    (t.foldl Lines.after l).enable = l.enable := by
  have key : ∀ t : List OutEvent, (∀ e ∈ t, e = .latchLow ∨ e = .latchHigh ∨ ∃ v, e = .bit v) →
      ∀ l : Lines, (t.foldl Lines.after l).enable = l.enable := by
    intro t
    induction t with
    | nil => intro _ l; rfl
    | cons e t ih =>
      intro h l
      rw [List.foldl_cons, ih (fun x hx => h x (by simp [hx]))]
      rcases h e (by simp) with rfl | rfl | ⟨v, rfl⟩ <;> rfl
  apply key
  intro e he
  have := h.subset he
  simp [frame] at this
  rcases this with h | h | h | h | h | h | h | h | h | h <;> simp [h]

/-- Where the lines are dark or only line i is lit, line i off leaves them dark. -/
theorem lineOff_of_lit {en : BitVec 16} {i : BitVec 4} (h : en = 0#16 ∨ en = 1#16 <<< i.toNat) : lineOff en i = 0#16 := by
  rcases h with rfl | rfl
  · simp [lineOff]
  · unfold lineOff; revert i; decide

@[simp] theorem lineOn_dark (i : BitVec 4) : lineOn 0#16 i = 1#16 <<< i.toNat := by simp [lineOn]

@[simp] theorem atMostOneLit_one (i : BitVec 4) : atMostOneLit (1#16 <<< i.toNat) = true := by revert i; decide

@[simp] theorem atMostOneLit_dark : atMostOneLit 0#16 = true := by decide

theorem togglesFrom_append (a b : List OutEvent) (l : Lines) :
    togglesFrom l.relay (a ++ b) = togglesFrom l.relay a + togglesFrom (a.foldl Lines.after l).relay b := by
  induction a generalizing l with
  | nil => simp [togglesFrom]
  | cons e a ih =>
    have hr := ih (l.after e)
    cases e <;> simp only [List.cons_append, togglesFrom, List.foldl_cons] <;>
      simp only [Lines.after, resetLines] at hr ⊢ <;> omega

/-- The toggles of a trace continued: those of the first part, and those of the rest from the level it left. -/
theorem relayToggles_append (a b : List OutEvent) :
    relayToggles (a ++ b) = relayToggles a + togglesFrom (linesAfter a).relay b := togglesFrom_append a b resetLines

end Sys2Proof.Machine
end

