-- ==== Sys2Proof/Tests/Slice0.lean ====
section
/-! SUPPORT. Tests. Expected words, responses and bytes are those of 95_test_vectors.md (the vector is named at each test) or
are read off the tables of 30_encoding.md; each `witness_` theorem shows that the hypotheses of one statement, or of one of its
clauses, can be met, at a boundary of their range. -/

namespace Sys2Proof.Tests

open Sys2Proof.Machine

/-- The configuration of 95_test_vectors.md: N = 3, STEP = 2, INVERT = 0, ButtonFirst, the default tables. The letters, which
the spec leaves open, are blank here; no test reads one. -/
def cfg : Config where
  n := 3
  step := 2
  invert := false
  priority := .buttonFirst
  segmap := defaultSegMap
  digitGlyph := defaultDigitGlyph
  letterGlyph := List.replicate 26 0#7
  tickHz := 200

/-- The configuration of V-REG-2: N = 16, STEP = 3, INVERT = 1, RotationFirst. -/
def cfg16 : Config := { cfg with n := 16, step := 3, invert := true, priority := .rotationFirst }

/-- A configuration with gcd(STEP, N) = 3 (V-MUX-6). -/
def cfg6 : Config := { cfg with n := 6, step := 3 }

/-- The reset state of the test configuration. -/
def s0 : State := State.resetOf cfg

/-- A state at rest after one tick: IDX = 0 lit, phases 11, button released. -/
def rest : State := { s0 with idx := 0#4, en := 1#16, lastph := 0b11#2, lastbtn := true }

/-- The thresholds L = 32 and H = 65 of V-HY-1. -/
def warm : State := { s0 with tlow := 32#16, thigh := 65#16 }

/-- The last response word of one word performed. -/
def answer (p : Port) (w : Word) (s : State) : Option Word :=
  match perform p w s with
  | .next t => t.responses.getLast?.map Response.word
  | .fault _ => none
  | .refused _ => none

/-- The state after one word performed. -/
def after (p : Port) (w : Word) (s : State) : State :=
  match perform p w s with
  | .next t => t
  | .fault _ => s
  | .refused _ => s

/-! ### WellFormed: the operand checks refuse ill-formed terms -/

theorem test_wellFormed_wrdig : Instr.wellFormed 3 (.wrdig 2#4 0xFF#8) = true ∧ Instr.wellFormed 3 (.wrdig 3#4 0xFF#8) = false := by
  decide

theorem test_wellFormed_rddig : Instr.wellFormed 16 (.rddig 15#4) = true ∧ Instr.wellFormed 15 (.rddig 15#4) = false := by decide

theorem test_wellFormed_wrchr :
    Instr.wellFormed 1 (.wrchr 0#4 false false 0x30#8) = true ∧ Instr.wellFormed 1 (.wrchr 1#4 false false 0x30#8) = false := by
  decide

theorem test_wellFormed_rdreg : Instr.wellFormed 3 (.rdreg 9#4) = true ∧ Instr.wellFormed 3 (.rdreg 10#4) = false := by decide

/-! ### Decode: words written out from the fields of 30_encoding.md R71 and R74 -/

/-- op 0000, every other bit 0. -/
theorem test_decode_nop : decode 0b00000000000000000000000000000000#32 .host = .ok .nop := by decide

/-- op 0001, data 0..0 BTN=1 A=0 B=1 (R87). -/
theorem test_decode_tick : decode 0b00010000000000000000000000000101#32 .tick = .ok (.tick true false true) := by decide

/-- op 0010, sel 0010, data 11011010 (R87). -/
theorem test_decode_wrdig : decode 0b00100010000000000000000011011010#32 .host = .ok (.wrdig 2#4 0xDA#8) := by decide

/-- op 0011, sel 1000. -/
theorem test_decode_rddig : decode 0b00111000000000000000000000000000#32 .host = .ok (.rddig 8#4) := by decide

/-- op 0100, sel 0001, f1 = E = 1, f0 = DP = 0, data 00110101. -/
theorem test_decode_wrchr_error : decode 0b01000001000000100000000000110101#32 .host = .ok (.wrchr 1#4 true false 0x35#8) := by
  decide

/-- op 0100, sel 0000, f1 = E = 0, f0 = DP = 1, data 00110111 (R87). -/
theorem test_decode_wrchr_dp : decode 0b01000000000000010000000000110111#32 .host = .ok (.wrchr 0#4 false true 0x37#8) := by
  decide

/-- op 0101, every other bit 0. -/
theorem test_decode_getevt : decode 0b01010000000000000000000000000000#32 .host = .ok .getevt := by decide

/-- op 0110, data 0000000000100000 (R87). -/
theorem test_decode_setlo : decode 0b01100000000000000000000000100000#32 .host = .ok (.setlo 32#16) := by decide

/-- op 0111, data 0000000001000001 (R87). -/
theorem test_decode_sethi : decode 0b01110000000000000000000001000001#32 .host = .ok (.sethi 65#16) := by decide

/-- op 1000, f0 = fault = 1, data 0000000000011110 (R87). -/
theorem test_decode_heval : decode 0b10000000000000010000000000011110#32 .host = .ok (.heval true 30#16) := by decide

/-- op 1001, sel 0101 (R87). -/
theorem test_decode_rdreg : decode 0b10010101000000000000000000000000#32 .host = .ok (.rdreg 5#4) := by decide

/-- The rejected words of V-DEC-1, each with the status of its reason. -/
theorem test_decode_rejects :
    decode 0x00000000#32 .tick = .error .errPort ∧ decode 0x01000000#32 .host = .error .errField ∧
    decode 0xA0000000#32 .host = .error .errOpcode ∧ decode 0xF0000000#32 .tick = .error .errOpcode ∧
    decode 0x10000007#32 .host = .error .errPort ∧ decode 0x200000FC#32 .tick = .error .errPort ∧
    decode 0x10000008#32 .tick = .error .errField ∧ decode 0x250001FF#32 .host = .error .errField := by decide

/-- The word of the opcode table's first TICK row, and a reserved opcode. -/
theorem test_decodeTableWord :
    decodeTableWord 32 0x10000000 = some (.tick false false false) ∧ decodeTableWord 32 0xA0000000 = none := by decide

/-- The word placed after reset is the first one performed. -/
theorem test_withFetchWord_reset :
    (match step (State.reset.withFetchWord 32 0x96000000) with
      | .next t => t.responses
      | .fault _ => []
      | .refused _ => []) = [{ port := .host, word := 0x00008000#32 }] := by decide

/-! ### One step of each instruction -/

/-- V-DEC-1, first row. -/
theorem test_nop : after .host 0x00000000#32 s0 = answered .host 0x00000000#32 s0 := by decide

/-- V-MUX-9: the twelve events, SEGOUT and EN of the first tick after `WRDIG 0, 0xFC`. -/
theorem test_tick_trace :
    let t := after .tick 0x10000007#32 (writeDigit 0#4 0xFC#8 s0)
    t.trace = [.reset, .digitOff 1#4, .latchLow, .bit true, .bit true, .bit true, .bit true, .bit true, .bit true, .bit false,
      .bit false, .latchHigh, .digitOn 0#4] ∧ t.segout = 0xFC#8 ∧ t.en = 0b001#16 := by decide

/-- V-QD-12: press and rotation in one tick, under both priorities. -/
theorem test_tick_priority :
    answer .tick 0x10000001#32 rest = some 0x00000032#32 ∧
    answer .tick 0x10000001#32 { rest with cfg := { cfg with priority := .rotationFirst } } = some 0x00000012#32 := by decide

/-- V-MUX-11: any byte is legal, the index is not shifted. -/
theorem test_wrdig :
    answer .host 0x220000FF#32 s0 = some 0x00000000#32 ∧ (after .host 0x220000FF#32 s0).buf = [(2, 0xFF#8)] := by decide

/-- V-MUX-11: index 3 of 3 digits. -/
theorem test_wrdig_index : after .host 0x230000DA#32 s0 = answered .host 0x40000000#32 s0 := by decide

/-- V-MUX-12. -/
theorem test_rddig :
    answer .host 0x32000000#32 (writeDigit 2#4 0xFF#8 s0) = some 0x000000FF#32 ∧
    answer .host 0x33000000#32 s0 = some 0x40000000#32 ∧ answer .host 0x32000001#32 s0 = some 0x30000000#32 := by decide

/-- V-ENC-3, V-ENC-6, V-ENC-7, V-ENC-12: response value and so BUF[0]. -/
theorem test_wrchr :
    answer .host 0x40010037#32 s0 = some 0x000000E1#32 ∧ answer .host 0x4000002D#32 s0 = some 0x00000002#32 ∧
    answer .host 0x4000003F#32 s0 = some 0x00000000#32 ∧ answer .host 0x40030035#32 s0 = some 0x000000FF#32 := by decide

/-- V-INV-11: the inverted mounting, with the buffer after it. -/
theorem test_wrchr_inverted :
    let t := after .host 0x40010037#32 { s0 with cfg := { cfg with invert := true } }
    t.responses.map Response.word = [0x0000021D#32] ∧ t.buf = [(2, 0x1D#8)] := by decide

/-- V-QD-3: the press is answered and the mailbox cleared. -/
theorem test_getevt :
    answer .host 0x50000000#32 { s0 with mbox := .buttonPress } = some 0x00000003#32 ∧
    (after .host 0x50000000#32 { s0 with mbox := .buttonPress }).mbox = .none := by decide

/-- V-QD-16: neither error clears the mailbox. -/
theorem test_getevt_errors :
    let s := { s0 with mbox := .clockwise }
    after .host 0x50000001#32 s = answered .host 0x30000000#32 s ∧
    after .tick 0x50000000#32 s = answered .tick 0x20000000#32 s := by decide

/-- P3 line 1, and V-HY-13. -/
theorem test_setlo :
    after .host 0x60000020#32 s0 = answered .host 0x00000000#32 { s0 with tlow := 0x0020#16 } ∧
    after .host 0x60010000#32 s0 = answered .host 0x30000000#32 s0 := by decide

/-- P3 line 2. -/
theorem test_sethi : after .host 0x70000041#32 s0 = answered .host 0x00000000#32 { s0 with thigh := 0x0041#16 } := by decide

/-- V-HY-2 (at L, dead band, at H) and V-HY-6 (a negative temperature). -/
theorem test_heval :
    answer .host 0x80000020#32 warm = some 0x00000003#32 ∧ answer .host 0x80000021#32 { warm with relay := true } = some 0x00000001#32 ∧
    answer .host 0x80000041#32 { warm with relay := true } = some 0x00000002#32 ∧
    answer .host 0x8000FFFB#32 warm = some 0x00000003#32 := by decide

/-- V-HY-11: a fault turns the relay Off, with its event. -/
theorem test_heval_fault :
    let t := after .host 0x80010028#32 { warm with relay := true }
    t.responses.map Response.word = [0x00000002#32] ∧ t.relay = false ∧ t.trace = [.reset, .relay false] := by decide

/-- V-REG-1, with the reserved register of V-REG-3. -/
theorem test_rdreg :
    [0x90000000#32, 0x91000000#32, 0x92000000#32, 0x93000000#32, 0x94000000#32, 0x95000000#32, 0x96000000#32, 0x97000000#32,
      0x98000000#32, 0x99000000#32, 0x9A000000#32].map (fun w => answer .host w s0) =
    [0x00000001#32, 0x00000000#32, 0x00000000#32, 0x00000000#32, 0x00000000#32, 0x00000000#32, 0x00008000#32, 0x00008000#32,
      0x00000203#32, 0x00000000#32, 0x30000000#32].map some := by decide

/-- V-REG-2. -/
theorem test_rdreg_config :
    answer .host 0x98000000#32 (State.resetOf cfg16) = some 0x00000310#32 ∧
    answer .host 0x99000000#32 (State.resetOf cfg16) = some 0x00000003#32 := by decide

/-! ### Shared operations -/

/-- The or of the segment bits is their sum, for all 128 segment sets (R100; log 13). -/
theorem test_byteOf_is_sum : ∀ S : SegSet,
    byteOf defaultSegMap S = allSegments.foldl (fun x s => if hasSeg S s then x + segBit defaultSegMap s else x) 0#8 := by decide

/-- V-INV-1 to V-INV-5 and V-INV-9. -/
theorem test_invertByte :
    [0x60#8, 0xE0#8, 0x66#8, 0xBE#8, 0xF2#8, 0xFD#8].map (invertByte defaultSegMap) =
      [0x0C#8, 0x1C#8, 0x2E#8, 0xF6#8, 0x9E#8, 0xFD#8] := by decide

/-- The default STEP of R126 for N = 3, 4, 6 (V-MUX-1, V-MUX-2, V-MUX-7), and the reset IDX of V-MUX-1, V-MUX-6, V-MUX-8. -/
theorem test_stride : [3, 4, 6].map defaultStep = [2, 3, 5] ∧ [cfg, cfg6, cfg16].map resetIndex = [1#4, 3#4, 13#4] := by decide

/-- R126: the default STEP has no common factor with N, for every N in 1..16. -/
theorem test_defaultStep_coprime : (List.range' 1 16).all (fun n => Nat.gcd (defaultStep n) n == 1) = true := by decide

/-- V-HY-12: the five Relay events of V-HY-2 are two toggles. -/
theorem test_relayToggles :
    relayToggles [.reset, .relay true, .relay true, .relay true, .relay false, .relay false] = 2 := by decide

/-- R85: an operand that does not fit is an error, and PUTS past the last digit is one too (R86). -/
theorem test_assembler_errors :
    assembleLine 3 "WRDIG 2, 0x100".toList = .error .outOfRange ∧ assembleLine 3 "SETLO 32768".toList = .error .outOfRange ∧
    assembleLine 3 "RDREG 10".toList = .error .outOfRange ∧ assembleLine 3 "PUTS 2, \"12\"".toList = .error .outOfRange ∧
    assembleLine 3 "PUTS 1, \"12\"".toList = .ok [.wrchr 1#4 false false 0x31#8, .wrchr 2#4 false false 0x32#8] := by decide

/-! ### Witnesses: words -/

theorem witness_EncodeOfDecodeIsTheWord : decode 0x80010028#32 .host = .ok (.heval true 40#16) := by decide

theorem witness_DecodeChecksOpcodePortThenField_opcode : 10 ≤ ((0xA0000000#32 : Word).extractLsb' 28 4).toNat := by decide

theorem witness_DecodeChecksOpcodePortThenField_port :
    ((0x90000000#32 : Word).extractLsb' 28 4).toNat < 10 ∧ ¬ onItsPort 0x90000000#32 .tick ∧ ¬ onItsPort 0x10000007#32 .host := by
  unfold onItsPort; decide

theorem witness_DecodeChecksOpcodePortThenField_field :
    ((0x10000008#32 : Word).extractLsb' 28 4).toNat < 10 ∧ onItsPort 0x10000008#32 .tick ∧
    0x10000008#32 &&& mbzOf 0x10000008#32 ≠ 0#32 ∧ 0x18000000#32 &&& mbzOf 0x18000000#32 ≠ 0#32 := by unfold onItsPort; decide

theorem witness_DecodeChecksOpcodePortThenField_decodes :
    ((0x9F000000#32 : Word).extractLsb' 28 4).toNat < 10 ∧ onItsPort 0x9F000000#32 .host ∧
    0x9F000000#32 &&& mbzOf 0x9F000000#32 = 0#32 := by unfold onItsPort; decide

theorem witness_ReservedOpcodesAnswerErrOpcode :
    10 ≤ ((0xA0000000#32 : Word).extractLsb' 28 4).toNat ∧ ((0x9FFFFFFF#32 : Word).extractLsb' 28 4).toNat < 10 := by decide

theorem witness_SetReservedBitsAnswerErrField :
    ((0x22000100#32 : Word).extractLsb' 28 4).toNat < 10 ∧ onItsPort 0x22000100#32 .host ∧
    0x22000100#32 &&& mbzOf 0x22000100#32 ≠ 0#32 := by unfold onItsPort; decide

theorem witness_FailedCommandsHaveNoEffect :
    perform .host 0x230000DA#32 s0 = .next (answered .host 0x40000000#32 s0) ∧
    (answered .host 0x40000000#32 s0).responses = s0.responses ++ [{ port := .host, word := 0x40000000#32 }] ∧
    (0x40000000#32 : Word).extractLsb' 28 4 ≠ 0#4 := by
  exact ⟨rfl, by decide, by decide⟩

/-- For each opcode of the ten `WordsPerform` clauses: a word of it with the lowest of its must-be-zero bits set, one with the
highest, and one with none, which for a zero mask bit next to an operand is the operand's own top bit. -/
theorem witness_WordsPerform :
    [ ((0x0#4 : BitVec 4), (0x00000001#32 : Word), (0x08000000#32 : Word), (0x00000000#32 : Word)),
      (0x1#4, 0x10000008#32, 0x18000000#32, 0x10000007#32), (0x2#4, 0x20000100#32, 0x20800000#32, 0x2F0000FF#32),
      (0x3#4, 0x30000001#32, 0x30800000#32, 0x3F000000#32), (0x4#4, 0x40000100#32, 0x40800000#32, 0x4F0300FF#32),
      (0x5#4, 0x50000001#32, 0x58000000#32, 0x50000000#32), (0x6#4, 0x60010000#32, 0x68000000#32, 0x6000FFFF#32),
      (0x7#4, 0x70010000#32, 0x78000000#32, 0x7000FFFF#32), (0x8#4, 0x80020000#32, 0x88000000#32, 0x8001FFFF#32),
      (0x9#4, 0x90000001#32, 0x90800000#32, 0x9F000000#32) ].all (fun q =>
        q.2.1.extractLsb' 28 4 == q.1 && q.2.2.1.extractLsb' 28 4 == q.1 && q.2.2.2.extractLsb' 28 4 == q.1 &&
        q.2.1 &&& mbzOf q.2.1 != 0#32 && q.2.2.1 &&& mbzOf q.2.2.1 != 0#32 && q.2.2.2 &&& mbzOf q.2.2.2 == 0#32) = true := by
  decide

/-! ### Witnesses: steps and reset -/

theorem witness_StepRunsTheDecodedCommand_host :
    let s := State.send .host 0x60000020#32 s0
    s.resetPin = false ∧ s.hostPort = [0x60000020#32] ∧ s.tickPort = [] ∧ decode 0x60000020#32 .host = .ok (.setlo 32#16) := by
  decide

theorem witness_StepRunsTheDecodedCommand_tick :
    let s := State.send .tick 0x10000007#32 s0
    s.resetPin = false ∧ s.hostPort = [] ∧ s.tickPort = [0x10000007#32] ∧
      decode 0x10000007#32 .tick = .ok (.tick true true true) := by decide

/-- Both ports have a word: the contended clauses, and the second part of the port order. -/
theorem witness_StepRunsTheDecodedCommand_both :
    let s := State.send .tick 0x10000007#32 (State.send .host 0x60000020#32 s0)
    s.resetPin = false ∧ s.hostPort = [0x60000020#32] ∧ s.tickPort = [0x10000007#32] ∧ s.hostPort ≠ [] ∧ s.tickPort ≠ [] := by
  decide

theorem witness_PlacedWordIsPerformedNext :
    decodeTableWord 32 0x10000007 = some (.tick true true true) ∧ decodeTableWord 32 0x9F000000 = some (.rdreg 15#4) := by decide

theorem witness_PortOrderIsKeptAndInterleavingIsOpen :
    (State.send .host 0xF0000000#32 s0).resetPin = false ∧
    stepWith .tick (State.send .host 0xF0000000#32 s0) = .next (answered .host 0x10000000#32 s0) :=
  ⟨by decide, rfl⟩

theorem witness_IdleBlockKeepsItsState : s0.resetPin = false ∧ s0.hostPort = [] ∧ s0.tickPort = [] := by decide

/-- A reset with the relay On and words waiting. -/
theorem witness_ResetInputSetsEveryElement :
    let s := State.assertReset (State.send .host 0x60000020#32 { rest with relay := true })
    s.resetPin = true ∧ s.relay = true ∧ s.hostPort ≠ [] := by decide

theorem witness_ResetPutsOutputsToResetLevels :
    let s := State.assertReset (after .host 0x80000020#32 warm)
    s.resetPin = true ∧ (linesAfter s.trace).relay = true ∧ (linesAfter s0.trace).relay = false := by decide

theorem witness_ConfigurationNeverChanges :
    stepWith .host (State.assertReset s0) = .next (applyReset (State.assertReset s0)) := rfl

/-! ### Witnesses: operands -/

/-- Index 2 of 3 digits is in range and 3 is not, and the same at 15 of 16 digits and 15 of 15. -/
theorem witness_index_ranges :
    (2#4).toNat < s0.cfg.n ∧ s0.cfg.n ≤ (3#4).toNat ∧ s0.cfg.n ≤ 16 ∧ (15#4).toNat < (State.resetOf cfg16).cfg.n := by decide

theorem witness_RdregAnswersTheRegisterMap : s0.cfg.wf ∧ (State.resetOf cfg16).cfg.wf ∧ 10 ≤ (10#4).toNat := by decide

/-- Legal segment maps: the default one, and the one that runs the other way. -/
theorem witness_segmap_wf :
    cfg.segmap.wf ∧ cfg.segmap = defaultSegMap ∧ cfg.digitGlyph = defaultDigitGlyph ∧
    SegMap.wf { a := 1, b := 2, c := 3, d := 4, e := 5, f := 6, g := 7 } := by decide

/-- The codes at the ends of each clause, in a legal configuration. -/
theorem witness_GlyphOfEveryCharacterCode :
    cfg.wf ∧ (0x30 ≤ (0x30#8).toNat ∧ (0x39#8).toNat ≤ 0x39) ∧ (0x41 ≤ (0x41#8).toNat ∧ (0x5A#8).toNat ≤ 0x5A) ∧
    [0x00#8, 0x2F#8, 0x3A#8, 0x40#8, 0x5B#8, 0xFF#8].all (fun k =>
      !(decide (0x30 ≤ k.toNat ∧ k.toNat ≤ 0x39)) && !(decide (0x41 ≤ k.toNat ∧ k.toNat ≤ 0x5A)) && k != 0x20#8 && k != 0x2D#8) =
      true := by decide

theorem witness_InvertedPositionIsSelfInverse :
    cfg16.n ≤ 16 ∧ (15#4).toNat < cfg16.n ∧ cfg16.invert = true ∧ cfg.invert = false := by decide

/-! ### Witnesses: commands that change an element -/

theorem witness_OnlyTheNamedCommandsWriteEachElement_tick :
    exec (.tick true false true) rest = .next (after .tick 0x10000005#32 rest) ∧
    (after .tick 0x10000005#32 rest).idx ≠ rest.idx ∧ (after .tick 0x10000005#32 rest).mbox ≠ rest.mbox :=
  ⟨rfl, by decide, by decide⟩

theorem witness_OnlyTheNamedCommandsWriteEachElement_host :
    (exec (.wrdig 2#4 0xFF#8) s0 = .next (after .host 0x220000FF#32 s0) ∧ (after .host 0x220000FF#32 s0).buf ≠ s0.buf) ∧
    (exec (.heval false 32#16) warm = .next (after .host 0x80000020#32 warm) ∧
      (after .host 0x80000020#32 warm).relay ≠ warm.relay) ∧
    (exec (.setlo 32#16) s0 = .next (after .host 0x60000020#32 s0) ∧ (after .host 0x60000020#32 s0).tlow ≠ s0.tlow) ∧
    (exec (.sethi 65#16) s0 = .next (after .host 0x70000041#32 s0) ∧ (after .host 0x70000041#32 s0).thigh ≠ s0.thigh) :=
  ⟨⟨rfl, by decide⟩, ⟨rfl, by decide⟩, ⟨rfl, by decide⟩, rfl, by decide⟩

theorem witness_MailboxEventsAreAnsweredOrOverwritten :
    let s := { s0 with mbox := .clockwise }
    exec .getevt s = .next (after .host 0x50000000#32 s) ∧ (after .host 0x50000000#32 s).mbox ≠ s.mbox :=
  ⟨rfl, by decide⟩

theorem witness_EventPendingFollowsTheMailbox :
    (exec (.tick true false true) rest = .next (after .tick 0x10000005#32 rest) ∧ evtPending rest = false ∧
      evtPending (after .tick 0x10000005#32 rest) = true) ∧
    (evtPending { s0 with mbox := .clockwise } = true ∧
      evtPending (after .host 0x50000000#32 { s0 with mbox := .clockwise }) = false) :=
  ⟨⟨rfl, by decide, by decide⟩, by decide, by decide⟩

theorem witness_PortsDoNotShareTheirOwnElements :
    exec (tickOf { btn := true, a := false, b := true }) rest = .next (after .tick 0x10000005#32 rest) ∧
    exec (.heval false 32#16) warm = .next (after .host 0x80000020#32 warm) :=
  ⟨rfl, rfl⟩

/-! ### Witnesses: runs of ticks -/

theorem witness_TicksVisitDigitsInStrideOrder :
    cfg.wf ∧ [Instr.nop].countP isTick = 0 ∧ 0 < [Instr.tick true true true].countP isTick := by decide

theorem witness_CoprimeStrideLightsEveryDigitOnce :
    rest.cfg.wf ∧ rest.idx.toNat < rest.cfg.n ∧ EnableOk rest ∧ EnableOk s0 ∧ Nat.gcd rest.cfg.step rest.cfg.n = 1 ∧
    (List.replicate 3 (Pins.mk true true true)).length = rest.cfg.n := by unfold EnableOk; decide

/-- A stride with a common factor, at a digit that is visited and one that is not. -/
theorem witness_StrideLightsExactlyTheCongruentDigits :
    let s := State.resetOf cfg6
    s.cfg.wf ∧ s.idx.toNat < s.cfg.n ∧ EnableOk s ∧ (List.replicate 6 (Pins.mk true true true)).length = s.cfg.n ∧
    Nat.gcd s.cfg.step s.cfg.n = 3 ∧ 0 % 3 = s.idx.toNat % 3 ∧ 5 % 3 ≠ s.idx.toNat % 3 := by unfold EnableOk; decide

/-- A write to the lit digit, and one to another. -/
theorem witness_WrittenDigitIsShownWhenSelected :
    rest.cfg.wf ∧ rest.idx.toNat < rest.cfg.n ∧ (0#4).toNat < rest.cfg.n ∧ (2#4).toNat < rest.cfg.n ∧ 0#4 = rest.idx ∧
    Nat.gcd rest.cfg.step rest.cfg.n = 1 ∧ (List.replicate 3 (Pins.mk true true true)).length = rest.cfg.n := by decide

/-- After a TICK and a later reset, with a rejected word and a HEVAL since that reset. -/
theorem witness_FirstTickAfterResetReportsNothing :
    let u := after .tick 0x10000007#32 s0
    let v := applyReset (State.assertReset u)
    let x := after .tick 0xF0000000#32 v
    let y := after .host 0x80000020#32 x
    Reachable cfg y ∧ y.trace = u.trace ++ .reset :: [.relay false] ∧ (∀ i, .digitOn i ∉ [OutEvent.relay false]) ∧
      .digitOn 0#4 ∈ u.trace := by
  refine ⟨.step .host (.send .host 0x80000020#32 (.step .tick (.send .tick 0xF0000000#32 (.step .host (.assertReset
    (.step .tick (.send .tick 0x10000007#32 .reset) rfl)) rfl)) rfl)) rfl, by decide, by decide, by decide⟩

/-- The same straight after reset. -/
theorem witness_FirstTickAfterResetReportsNothing_reset : Reachable cfg s0 ∧ s0.trace = [] ++ .reset :: [] := ⟨.reset, by decide⟩

theorem witness_DetentsFromRestGiveTheirEvents : rest.lastph = 0b11#2 ∧ rest.lastbtn = true := by decide

/-! ### Witnesses: the relay -/

/-- Strictly between the thresholds 32 and 65, at both ends. -/
theorem witness_RelayKeepsTheDeadBand :
    warm.tlow.toInt < (33#16).toInt ∧ (33#16).toInt < warm.thigh.toInt ∧ warm.tlow.toInt < (64#16).toInt ∧
    (64#16).toInt < warm.thigh.toInt := by decide

/-- V-HY-7 and V-HY-8. -/
theorem witness_CrossedThresholdsHaveNoDeadBand :
    let s := { s0 with tlow := 50#16, thigh := 40#16 }
    let u := { s0 with tlow := 40#16, thigh := 40#16 }
    s.thigh.toInt ≤ s.tlow.toInt ∧ u.thigh.toInt ≤ u.tlow.toInt := by decide

theorem witness_RelayStaysOffUntilSethi : ∀ v : Half, Instr.sethi v ∉ [Instr.setlo 32#16, .heval false 0x8000#16] := by
  intro v; simp

theorem witness_RepeatedHevalTogglesAtMostOnce : (linesAfter warm.trace).relay = warm.relay := by decide

/-! ### Witnesses: the invariant and reachable states -/

/-- The reset state of the test configuration has the invariant. -/
theorem witness_EveryStepKeepsTheInvariant : Inv s0 ∧ stepWith .host s0 = .next s0 := by
  refine ⟨⟨by decide, by decide, ⟨by decide, by decide⟩, .inl (by decide), ⟨by decide, by decide, by decide⟩, ?_⟩, rfl⟩
  intro t ht
  rcases t with _ | ⟨e, u⟩
  · decide
  · obtain ⟨rfl, hu⟩ := List.cons_prefix_cons.mp ht
    rw [List.prefix_nil.mp hu]
    decide

/-- A state the block reaches by one TICK. -/
theorem witness_ReachableStatesHaveTheInvariant :
    cfg.wf ∧ Reachable cfg (after .tick 0x10000007#32 s0) :=
  ⟨by decide, .step .tick (.send .tick 0x10000007#32 .reset) rfl⟩

/-- In that state the trace holds a digit that was lit. -/
theorem witness_ExactlyOneDigitIsLitSinceTheFirstTick :
    .digitOn 0#4 ∈ (after .tick 0x10000007#32 s0).trace ∧ (after .tick 0x10000007#32 s0).en = 1#16 := by decide

/-! ### Witnesses: the assembler -/

/-- Numbers at the bounds 2, 16 and 32767 of their fields, and the two ends of the temperatures with the first value past each,
in three bases. -/
theorem witness_AssembledProgramsHoldOnlyCommands :
    unsignedNumber "1".toList = .ok 1 ∧ unsignedNumber "0b10".toList = .ok 2 ∧ unsignedNumber "0xF".toList = .ok 15 ∧
    unsignedNumber "256".toList = .ok 256 ∧ WritesInteger "32767".toList 32767 ∧ WritesInteger "0x8000".toList 32768 ∧
    WritesInteger "-32768".toList (-32768) ∧ WritesInteger "-32769".toList (-32769) :=
  ⟨by decide, by decide, by decide, by decide, .inl ⟨32767, by decide, by decide⟩, .inl ⟨32768, by decide, by decide⟩,
    .inr ⟨"32768".toList, 32768, by decide, by decide, by decide⟩, .inr ⟨"32769".toList, 32769, by decide, by decide, by decide⟩⟩

theorem witness_AssembledProgramsHoldOnlyCommands_program : assemble 3 ["RDREG 9".toList] = .ok [0x99000000#32] := by decide

end Sys2Proof.Tests
end

section
/-! SUPPORT. The encoding family (30_encoding.md R75, R76, R80): when the decoder answers each of its errors, what performing
a command answers, and the statements that follow from the two. -/

namespace Sys2Proof

/-! ### The errors of the decoder -/

/-- A word of a defined opcode names an instruction (30_encoding.md R72, R75). -/
theorem exists_named {w : Word} (h : (opField w).toNat < 10) : ∃ i, named w = some i := by
  rw [← Option.ne_none_iff_exists', Ne, named_none_iff]
  omega

/-- The decoder answers ERR_OPCODE exactly where the word names no instruction, whatever the port (30_encoding.md R77). -/
theorem decode_errOpcode_iff (w : Word) (p : Port) : decode w p = .error .errOpcode ↔ named w = none := by
  unfold decode
  split
  next hn => simp [hn]
  next i hn => split_ifs <;> simp [hn]

/-- A named word with a must-be-zero bit set, on the port of its instruction, answers ERR_FIELD (30_encoding.md R76, R77). -/
theorem decode_of_mbz_set {w : Word} {i : Instr} (hn : named w = some i) (hm : w &&& i.mbz ≠ 0#32) :
    decode w i.port = .error .errField := by
  simp [decode, hn, hm]

namespace Machine

/-- The mask of the instruction a word names is the one that the table of R73 lists for the word's opcode. -/
theorem named_mbz {w : Word} {i : Instr} (h : named w = some i) : i.mbz = mbzOf w := by
  unfold named opField at h
  unfold mbzOf
  split at h <;> cases h <;> simp_all [Instr.mbz, mbzTable]

/-- A word is on its port where it is on the port of the instruction it names (60_exceptions.md R228). -/
theorem onItsPort_iff {w : Word} {i : Instr} (h : named w = some i) (p : Port) : onItsPort w p ↔ p = i.port := by
  have hp : i.port = .tick ↔ w.extractLsb' 28 4 = 0x1#4 := named_port h
  unfold onItsPort
  rw [← hp]
  cases p <;> cases i.port <;> decide

/-! ### What a command answers -/

/-- The error a command answers where its operands are out of range: ERR_FIELD for a register number, ERR_INDEX for a digit
index or position (30_encoding.md R74). No other command has such operands. -/
def operandError : Instr → Status
  | .rdreg _ => .errField
  | _ => .errIndex

/-- The opcode is the decoder's to check: no operand raises ERR_OPCODE. -/
theorem operandError_ne_errOpcode (i : Instr) : operandError i ≠ .errOpcode := by
  cases i <;> simp [operandError]

/-- The register map has a value exactly for the numbers 0 to 9 (44_tick_and_control.md R203). -/
theorem regValue_isSome (s : State) (n : BitVec 4) : (regValue s n).isSome = decide (n.toNat ≤ 9) := by
  unfold regValue
  split <;> simp_all
  omega

/-- A command whose operands are in range returns one response, of status OK, on its own port. -/
theorem exec_of_wellFormed {i : Instr} {s : State} (h : i.wellFormed s.cfg.n = true) :
    ∃ v u, exec i s = .next (respond i.port .ok v u) ∧ u.responses = s.responses := by
  cases i with
  | nop | tick | getevt | setlo | sethi | heval => exact ⟨_, _, rfl, rfl⟩
  | wrdig | rddig | wrchr => exact ⟨_, _, if_pos h, rfl⟩
  | rdreg sel =>
    obtain ⟨v, hv⟩ := Option.isSome_iff_exists.mp ((regValue_isSome s sel).trans h)
    exact ⟨v, s, by simp only [exec, execRdreg, hv, Instr.port], rfl⟩

/-- A command with an operand out of range raises its error and does nothing else (60_exceptions.md R221). -/
theorem exec_of_not_wellFormed {i : Instr} {s : State} (h : i.wellFormed s.cfg.n = false) :
    exec i s = .next (raise i.port (operandError i) s) := by
  cases i with
  | nop | tick | getevt | setlo | sethi | heval => cases h
  | wrdig | rddig | wrchr => exact if_neg (Bool.eq_false_iff.mp h)
  | rdreg sel =>
    have hv : regValue s sel = none := by
      rw [← Option.isNone_iff_eq_none, ← Option.isSome_eq_false_iff, regValue_isSome]
      exact h
    simp only [exec, execRdreg, hv, Instr.port, operandError]

/-- What performing a word can answer: one response on its port; where that is not OK its value is 0 and nothing else has
changed; and ERR_OPCODE only for a word that names no instruction. -/
theorem perform_answers (p : Port) (w : Word) (s : State) :
    ∃ st v u, perform p w s = .next (respond p st v u) ∧ u.responses = s.responses ∧
      (st ≠ .ok → v = 0#16 ∧ u = s) ∧ (st = .errOpcode → named w = none) := by
  cases hd : decode w p with
  | error st =>
    refine ⟨st, 0#16, s, ?_, rfl, fun _ => ⟨rfl, rfl⟩, ?_⟩
    · simp only [perform, hd, raise]
    · rintro rfl
      exact (decode_errOpcode_iff w p).mp hd
  | ok i =>
    obtain ⟨-, rfl, -⟩ := decode_ok hd
    rw [perform_of_ok hd]
    cases hw : i.wellFormed s.cfg.n with
    | true =>
      obtain ⟨v, u, he, hu⟩ := exec_of_wellFormed hw
      exact ⟨.ok, v, u, he, hu, fun h => absurd rfl h, nofun⟩
    | false =>
      refine ⟨operandError i, 0#16, s, exec_of_not_wellFormed hw, rfl, fun _ => ⟨rfl, rfl⟩, fun h => ?_⟩
      exact absurd h (operandError_ne_errOpcode i)

/-- Status 1 is the code of ERR_OPCODE and of no other status (60_exceptions.md R220). -/
theorem statusCode_eq_one {st : Status} : statusCode st = 1#4 ↔ st = .errOpcode := by cases st <;> decide

/-- A word that answers status 1 names no instruction. -/
theorem named_none_of_answersOnly_one {p : Port} {w : Word} {s : State} (h : AnswersOnly p w 1#4 s) : named w = none := by
  obtain ⟨st, v, u, hp, hu, -, hop⟩ := perform_answers p w s
  have hs : respond p st v u = answered p (1#4 ++ 0#28) s := by
    unfold AnswersOnly at h
    rw [hp] at h
    injection h
  have hr := congrArg State.responses hs
  simp only [respond_responses, answered_responses, hu, List.append_cancel_left_eq, List.cons.injEq, Response.mk.injEq,
    true_and, and_true] at hr
  have hc : statusCode st = 1#4 := by
    rw [← (responseWord_fields st v).1, hr]
    decide
  exact hop (statusCode_eq_one.mp hc)

/-! ### The statements -/

/-- Settles O5: the decoder answers ERR_OPCODE exactly where no instruction is named, and no command answers it. -/
theorem reservedOpcodesAnswerErrOpcode : Obligations.ReservedOpcodesAnswerErrOpcode := by
  intro p w s
  constructor
  · intro hop
    exact perform_of_error ((decode_errOpcode_iff w p).mpr ((named_none_iff w).mpr hop)) s
  · intro hop
    obtain ⟨i, hi⟩ := exists_named hop
    refine ⟨⟨i, hi⟩, fun h => ?_⟩
    rw [named_none_of_answersOnly_one h] at hi
    cases hi

/-- Settles O6: the word names an instruction, whose port is the word's port and whose mask is the table's. -/
theorem setReservedBitsAnswerErrField : Obligations.SetReservedBitsAnswerErrField := by
  intro p w s hop hport hmbz
  obtain ⟨i, hi⟩ := exists_named hop
  obtain rfl := (onItsPort_iff hi p).mp hport
  rw [← named_mbz hi] at hmbz
  exact perform_of_error (decode_of_mbz_set hi hmbz) s

/-- Settles O7, by what performing a word can answer and the fields of a response word. -/
theorem everyCommandReturnsOneResponseWord : Obligations.EveryCommandReturnsOneResponseWord := by
  intro p w s
  obtain ⟨st, v, u, hp, hu, herr, -⟩ := perform_answers p w s
  obtain ⟨hstatus, hzero, hvalue⟩ := responseWord_fields st v
  refine ⟨_, responseWord st v, hp, by rw [respond_responses, hu], hzero, fun hne => ?_⟩
  have hst : st ≠ .ok := by
    rintro rfl
    exact hne hstatus
  exact hvalue.trans (herr hst).1

end Machine

end Sys2Proof
end

section
/-! SUPPORT. The segment encoder family (40_segment_encoder.md R102 to R105, R109): the glyph of each kind of character code,
the bits of an encoded byte, what WRCHR does, and the statements that follow. -/

namespace Sys2Proof.Machine

/-! ### Glyphs -/

/-- The code of a digit takes its glyph from the digit table (40_segment_encoder.md R102). -/
theorem glyph_digit (c : Config) {code : Byte} (h : 0x30 ≤ code.toNat ∧ code.toNat ≤ 0x39) :
    glyph c code = c.digitGlyph.getD (code.toNat - 0x30) 0#7 := if_pos h

/-- The code of a letter takes its glyph from the letter table (40_segment_encoder.md R103). -/
theorem glyph_letter (c : Config) {code : Byte} (h : 0x41 ≤ code.toNat ∧ code.toNat ≤ 0x5A) :
    glyph c code = c.letterGlyph.getD (code.toNat - 0x41) 0#7 := by
  rw [glyph, if_neg (by omega), if_pos h]

/-- Minus is segment g alone (40_segment_encoder.md R104). -/
theorem glyph_minus (c : Config) : glyph c 0x2D#8 = segSet [.g] := by simp [glyph]

/-- A code that is no digit, no letter and not minus is blank: space and the unknown codes (40_segment_encoder.md R104). -/
theorem glyph_blank (c : Config) {code : Byte} (hd : ¬ (0x30 ≤ code.toNat ∧ code.toNat ≤ 0x39))
    (hl : ¬ (0x41 ≤ code.toNat ∧ code.toNat ≤ 0x5A)) (hm : code ≠ 0x2D#8) : glyph c code = 0#7 := by
  rw [glyph, if_neg hd, if_neg hl, if_neg hm]

/-- The set of g alone has no other segment. -/
theorem hasSeg_g (s : Segment) : hasSeg (segSet [.g]) s = decide (s = .g) := by cases s <;> decide

/-- The set of all seven segments has every segment (40_segment_encoder.md R105). -/
theorem hasSeg_all (s : Segment) : hasSeg (segSet allSegments) s = true := by cases s <;> decide

/-! ### The encoded byte -/

/-- Bit 0 of an encoded byte is the decimal point (40_segment_encoder.md R100, R101). -/
theorem enc_zero {c : Config} (h : c.segmap.wf) (code : Byte) (dp e : Bool) : (enc c code dp e).getLsbD 0 = dp := by
  rw [enc, BitVec.getLsbD_or, byteOf_zero h, Bool.false_or]
  cases dp <;> rfl

/-- The decimal point lights no segment's bit (40_segment_encoder.md R100). -/
theorem dpBit_pos {m : SegMap} (h : m.wf) (dp : Bool) (s : Segment) : (dpBit dp).getLsbD (m.pos s) = false := by
  have hpos : m.pos s ≠ 0 := Nat.ne_of_gt (pos_range h s).1
  cases dp
  · exact BitVec.getLsbD_zero
  · simp [dpBit, BitVec.getLsbD_one, hpos]

/-- The bit of a segment in an encoded byte: lit by the error pattern, else by the glyph (40_segment_encoder.md R101). -/
theorem enc_pos {c : Config} (h : c.segmap.wf) (code : Byte) (dp e : Bool) (s : Segment) :
    (enc c code dp e).getLsbD (c.segmap.pos s) = (e || hasSeg (glyph c code) s) := by
  rw [enc, BitVec.getLsbD_or, byteOf_pos h, dpBit_pos h, Bool.or_false]
  cases e
  · rfl
  · exact hasSeg_all s

/-- The bits 7 to 1 of 0xFE and of 0xFF are set. -/
theorem allLit_getLsbD (dp : Bool) {k : Nat} (h1 : 1 ≤ k) (h7 : k ≤ 7) :
    (if dp then 0xFF#8 else 0xFE#8).getLsbD k = true := by
  interval_cases k <;> cases dp <;> rfl

/-- The glyph of the digit 8 under the default table is all seven segments (40_segment_encoder.md R102, R105). -/
theorem glyph_eight {c : Config} (h : c.digitGlyph = defaultDigitGlyph) : glyph c 0x38#8 = segSet allSegments := by
  rw [glyph_digit c (by decide), h]
  rfl

/-! ### The words of an opcode -/

/-- An opcode whose words all name their command `cmd w`, of port `own`, with `bad` its must-be-zero check: the decoder's
order (30_encoding.md R77) gives what its words do. -/
theorem wordsPerform_of_named {op : BitVec 4} {own other : Port} {bad : Word → Prop} {cmd : Word → Instr}
    (hother : other ≠ own) (hnamed : ∀ w, opField w = op → named w = some (cmd w)) (hport : ∀ w, (cmd w).port = own)
    (hbad : ∀ w, bad w ↔ w &&& (cmd w).mbz ≠ 0#32) : WordsPerform op own other bad cmd := by
  intro s w hop
  have hn := hnamed w hop
  have hp := hport w
  refine ⟨?_, fun hb => ?_, fun hb => ?_⟩
  · have hd : decode w other = .error .errPort := by simp [decode, hn, hp, hother]
    exact perform_of_error hd s
  · have hd : decode w own = .error .errField := hp ▸ decode_of_mbz_set hn ((hbad w).mp hb)
    exact perform_of_error hd s
  · have hd : decode w own = .ok (cmd w) := by simp [decode, hn, hp, not_not.mp (mt (hbad w).mpr hb)]
    exact perform_of_ok hd s

/-- WRCHR's must-be-zero bits are bits 23:18 and 15:8 (30_encoding.md R73). -/
theorem wrchr_mbz_iff (w : Word) (sel : BitVec 4) (e dp : Bool) (code : Byte) :
    w.extractLsb' 18 6 ≠ 0#6 ∨ w.extractLsb' 8 8 ≠ 0#8 ↔ w &&& (Instr.wrchr sel e dp code).mbz ≠ 0#32 := by
  have hmask : (Instr.wrchr sel e dp code).mbz = 0x00FC0000#32 ||| 0x0000FF00#32 := rfl
  rw [hmask, Ne, Ne, Ne, BitVec.and_or_distrib_left, BitVec.or_eq_zero_iff, not_and_or,
    field_zero_iff w 18 6 0x00FC0000#32 (by decide), field_zero_iff w 8 8 0x0000FF00#32 (by decide)]

/-- The words of opcode 4 perform WRCHR (30_encoding.md R72 to R74). -/
theorem wrchr_wordsPerform :
    WordsPerform 0x4#4 .host .tick (fun w => w.extractLsb' 18 6 ≠ 0#6 ∨ w.extractLsb' 8 8 ≠ 0#8)
      (fun w => .wrchr (w.extractLsb' 24 4) (w.getLsbD 17) (w.getLsbD 16) (w.extractLsb' 0 8)) := by
  refine wordsPerform_of_named (by decide) (fun w hop => ?_) (fun _ => rfl) (fun w => wrchr_mbz_iff w _ _ _ _)
  simp only [named, hop]
  rfl

/-! ### WRCHR -/

/-- A command with a digit index or position out of range answers ERR_INDEX with value 0, and nothing else changes
(30_encoding.md R74, 60_exceptions.md R221). -/
theorem exec_answers_errIndex {i : Instr} {s : State} (hw : i.wellFormed s.cfg.n = false)
    (hi : operandError i = .errIndex) : exec i s = .next (answered i.port 0x40000000#32 s) := by
  have hcode : statusCode .errIndex ++ 0#28 = 0x40000000#32 := by decide
  rw [exec_of_not_wellFormed hw, raise_eq_answered, hi, hcode]

/-- The response word of WRCHR: physical index above the byte, zeros above both (30_encoding.md R81). -/
theorem responseWord_indexByte (p : BitVec 4) (b : Byte) : responseWord .ok (0#4 ++ p ++ b) = 0#20 ++ p ++ b := by
  rw [responseWord_ok]
  apply BitVec.eq_of_toNat_eq
  simp only [BitVec.toNat_append, BitVec.toNat_ofNat, Nat.zero_mod, Nat.zero_shiftLeft, Nat.zero_or]

/-- Everything WRCHR does at a position below N (40_segment_encoder.md R109). -/
theorem exec_wrchr {s : State} {sel : BitVec 4} (e dp : Bool) (code : Byte) (h : sel.toNat < s.cfg.n) :
    exec (.wrchr sel e dp code) s = .next (answered .host (0#20 ++ phys s.cfg sel ++ charByte s.cfg code dp e)
      { s with buf := Memory.write s.buf (phys s.cfg sel).toNat (charByte s.cfg code dp e) }) := by
  have hr : inRange s.cfg sel = true := decide_eq_true h
  rw [exec, execWrchr, if_pos hr, respond, responseWord_indexByte]
  rfl

/-! ### The statements -/

/-- Settles O30, one clause per kind of code, and the ten default bytes by evaluation. -/
theorem glyphOfEveryCharacterCode : Obligations.GlyphOfEveryCharacterCode := by
  refine ⟨fun c code hwf => ?_, by decide⟩
  obtain ⟨-, -, -, -, hmap, hdigits, hletters⟩ := hwf
  refine ⟨fun hd => ?_, fun hl => ?_, ?_, ?_, fun hd hl _ hm => glyph_blank c hd hl hm, byteOf_zero hmap _⟩
  · have hk : code.toNat - 0x30 < c.digitGlyph.length := by omega
    rw [glyph_digit c hd, List.getElem?_eq_getElem hk, List.getD_eq_getElem _ _ hk]
  · have hk : code.toNat - 0x41 < c.letterGlyph.length := by omega
    rw [glyph_letter c hl, List.getElem?_eq_getElem hk, List.getD_eq_getElem _ _ hk]
  · rintro rfl
    exact glyph_blank c (by decide) (by decide) (by decide)
  · rintro rfl s
    rw [glyph_minus, hasSeg_g]

/-- Settles O31: the two bytes have the same decimal point and every segment lit; the digit 8 has all seven segments too. -/
theorem errorPatternLightsEverySegment : Obligations.ErrorPatternLightsEverySegment := by
  intro c code dp hmap
  constructor
  · apply byte_ext hmap
    · rw [enc_zero hmap]
      cases dp <;> rfl
    · intro s
      obtain ⟨h1, h7⟩ := pos_range hmap s
      rw [enc_pos hmap, allLit_getLsbD dp h1 h7, Bool.true_or]
  · intro _ hdigits
    simp [enc, glyph_eight hdigits]

/-- Settles O23: WRCHR writes one index of the digit space, and a read after that write gives both buffer clauses. -/
theorem wrchrStoresTheEncodedCharacter : Obligations.WrchrStoresTheEncodedCharacter := by
  refine ⟨fun s sel e dp code hn hsel => ?_, fun s sel e dp code hsel => ?_, wrchr_wordsPerform⟩
  · intro p byte
    have hp : (phys s.cfg sel).toNat = p := phys_toNat hn hsel
    have hindex : BitVec.ofNat 4 p = phys s.cfg sel := by rw [← hp, BitVec.ofNat_toNat, BitVec.setWidth_eq]
    have hbyte : byte = charByte s.cfg code dp e := rfl
    refine ⟨_, exec_wrchr e dp code hsel, ?_, ?_, fun a ha => ?_⟩
    · rw [hindex, hbyte, answered_buf]
    · rw [answered_buf, hp, hbyte, Memory.read_write_same]
    · rw [answered_buf, hp, Memory.read_write_other _ ha]
  · have hw : (Instr.wrchr sel e dp code).wellFormed s.cfg.n = false := decide_eq_false (by omega)
    exact exec_answers_errIndex hw rfl

end Sys2Proof.Machine
end

section
/-! SUPPORT. The display multiplexer family (41_display_multiplexer.md R129, R130): the words of WRDIG and RDDIG, what each
does at an index below N, and the statements that follow. -/

namespace Sys2Proof.Machine

/-! ### WRDIG -/

/-- The words of opcode 2 perform WRDIG; its must-be-zero bits are bits 23:8 (30_encoding.md R72 to R74). -/
theorem wrdig_wordsPerform :
    WordsPerform 0x2#4 .host .tick (fun w => w.extractLsb' 8 16 ≠ 0#16)
      (fun w => .wrdig (w.extractLsb' 24 4) (w.extractLsb' 0 8)) := by
  refine wordsPerform_of_named (by decide) (fun w hop => ?_) (fun _ => rfl)
    (fun w => not_congr (field_zero_iff w 8 16 0x00FFFF00#32 (by decide)))
  simp only [named, hop]
  rfl

/-- Everything WRDIG does at an index below N: the byte is stored as it is, at that physical index (41_display_multiplexer.md
R129). -/
theorem exec_wrdig {s : State} {sel : BitVec 4} (byte : Byte) (h : sel.toNat < s.cfg.n) :
    exec (.wrdig sel byte) s =
      .next (answered .host 0x00000000#32 { s with buf := Memory.write s.buf sel.toNat byte }) := by
  have hr : inRange s.cfg sel = true := decide_eq_true h
  have hword : responseWord .ok 0#16 = 0x00000000#32 := by decide
  rw [exec, execWrdig, if_pos hr, respond, hword]
  rfl

/-! ### RDDIG -/

/-- The words of opcode 3 perform RDDIG; its must-be-zero bits are bits 23:0 (30_encoding.md R72 to R74). -/
theorem rddig_wordsPerform :
    WordsPerform 0x3#4 .host .tick (fun w => w.extractLsb' 0 24 ≠ 0#24) (fun w => .rddig (w.extractLsb' 24 4)) := by
  refine wordsPerform_of_named (by decide) (fun w hop => ?_) (fun _ => rfl)
    (fun w => not_congr (field_zero_iff w 0 24 0x00FFFFFF#32 (by decide)))
  simp only [named, hop]
  rfl

/-- The response word of a byte: the byte below, zeros above (30_encoding.md R80, R81). -/
theorem responseWord_byte (b : Byte) : responseWord .ok (0#8 ++ b) = 0#24 ++ b := by
  rw [responseWord_ok]
  apply BitVec.eq_of_toNat_eq
  simp only [BitVec.toNat_append, BitVec.toNat_ofNat, Nat.zero_mod, Nat.zero_shiftLeft, Nat.zero_or]

/-- Everything RDDIG does at an index below N: the entry is answered (41_display_multiplexer.md R130). -/
theorem exec_rddig {s : State} {sel : BitVec 4} (h : sel.toNat < s.cfg.n) :
    exec (.rddig sel) s = .next (answered .host (0#24 ++ Memory.read s.buf sel.toNat) s) := by
  have hr : inRange s.cfg sel = true := decide_eq_true h
  rw [exec, execRddig, if_pos hr, respond, responseWord_byte]
  rfl

/-! ### The statements -/

/-- Settles O21: WRDIG writes one index of the digit space, and a read after that write gives both buffer clauses. -/
theorem wrdigStoresOneDigit : Obligations.WrdigStoresOneDigit := by
  refine ⟨fun s sel byte hsel => ?_, fun s sel byte hsel => ?_, wrdig_wordsPerform⟩
  · exact ⟨_, exec_wrdig byte hsel, rfl, Memory.read_write_same _ _ _, fun _ ha => Memory.read_write_other _ ha⟩
  · have hw : (Instr.wrdig sel byte).wellFormed s.cfg.n = false := decide_eq_false (by omega)
    exact exec_answers_errIndex hw rfl

/-- Settles O22: below N the entry is answered, and an index of N or more is an operand out of range. -/
theorem rddigAnswersTheDigit : Obligations.RddigAnswersTheDigit := by
  refine ⟨fun s sel hsel => exec_rddig hsel, fun s sel hsel => ?_, rddig_wordsPerform⟩
  have hw : (Instr.rddig sel).wellFormed s.cfg.n = false := decide_eq_false (by omega)
  exact exec_answers_errIndex hw rfl

end Sys2Proof.Machine
end

section
/-! SUPPORT. The quadrature decoder family (42_quadrature_decoder.md R151 to R153, R160): what the button classifier, the
rotation classifier and the selection answer in each case, what GETEVT and its words do, and the statements that follow. -/

namespace Sys2Proof.Machine

/-! ### The button classifier -/

/-- The button going down is a press (42_quadrature_decoder.md R151). -/
@[simp] theorem pressEdge_falling : pressEdge true false = true := rfl

/-- A button that was down at the last tick gives no press: a release or a held button (42_quadrature_decoder.md R151). -/
@[simp] theorem pressEdge_of_last_down (btn : Bool) : pressEdge false btn = false := Bool.false_and _

/-- A button that is up now gives no press: a release or an idle button (42_quadrature_decoder.md R151). -/
@[simp] theorem pressEdge_of_now_up (lastbtn : Bool) : pressEdge lastbtn true = false := Bool.and_false _

/-! ### The rotation classifier -/

/-- Out of rest, the first phase to go low gives the direction (42_quadrature_decoder.md R152). -/
theorem rotEvent_of_rest (ph : BitVec 2) :
    rotEvent 0b11#2 ph =
      if ph = 0b01#2 then .clockwise else if ph = 0b10#2 then .counterClockwise else .none := if_pos rfl

/-- Out of any other state nothing is classified (42_quadrature_decoder.md R152). -/
theorem rotEvent_of_not_rest {lastph : BitVec 2} (h : lastph ≠ 0b11#2) (ph : BitVec 2) : rotEvent lastph ph = .none :=
  if_neg h

/-! ### The selection -/

/-- Without a press the rotation is selected, if there is one (42_quadrature_decoder.md R153). -/
@[simp] theorem selectEvent_of_no_press (pr : EventPriority) (rot : Event) : selectEvent pr false rot = rot := by
  simp [selectEvent]

/-- A press alone is selected (42_quadrature_decoder.md R153). -/
@[simp] theorem selectEvent_of_no_rotation (pr : EventPriority) : selectEvent pr true .none = .buttonPress := by
  simp [selectEvent]

/-- Where a press and a rotation meet, ButtonFirst selects the press (42_quadrature_decoder.md R153). With no rotation the
press is selected too, so the lemma needs no premise. -/
@[simp] theorem selectEvent_buttonFirst (rot : Event) : selectEvent .buttonFirst true rot = .buttonPress := by
  simp [selectEvent]

/-- Where a press and a rotation meet, RotationFirst selects the rotation (42_quadrature_decoder.md R153). -/
theorem selectEvent_rotationFirst {rot : Event} (h : rot ≠ .none) : selectEvent .rotationFirst true rot = rot :=
  if_pos ⟨rfl, h⟩

/-! ### GETEVT -/

/-- The words of opcode 5 perform GETEVT; its must-be-zero bits are bits 27:0 (30_encoding.md R72 to R74). -/
theorem getevt_wordsPerform :
    WordsPerform 0x5#4 .host .tick (fun w => w.extractLsb' 0 28 ≠ 0#28) (fun _ => .getevt) := by
  refine wordsPerform_of_named (by decide) (fun w hop => ?_) (fun _ => rfl)
    (fun w => not_congr (field_zero_iff w 0 28 0x0FFFFFFF#32 (by decide)))
  simp only [named, hop]
  rfl

/-- The response word of an event code: the code below, zeros above (30_encoding.md R80, R81). -/
theorem responseWord_event (e : Event) : responseWord .ok (0#14 ++ eventCode e) = 0#30 ++ eventCode e := by
  cases e <;> decide

/-- Everything GETEVT does (42_quadrature_decoder.md R160). -/
theorem exec_getevt (s : State) :
    exec .getevt s = .next (answered .host (0#30 ++ eventCode s.mbox) { s with mbox := .none }) := by
  rw [exec, execGetevt, respond, responseWord_event]
  rfl

/-! ### The statements -/

/-- Settles O24, by everything GETEVT does and what the words of its opcode perform. -/
theorem getevtAnswersAndClearsTheMailbox : Obligations.GetevtAnswersAndClearsTheMailbox :=
  ⟨exec_getevt, getevt_wordsPerform⟩

/-- Settles O42: the falling edge is a press; a release and a held button were down before, an idle one is up now. -/
theorem pressIsAFallingButtonEdge : Obligations.PressIsAFallingButtonEdge :=
  ⟨pressEdge_falling, pressEdge_of_last_down true, pressEdge_of_last_down false, pressEdge_of_now_up true⟩

/-- Settles O43, by whether the last sample was the rest state. -/
theorem rotationOnlyOutOfRest : Obligations.RotationOnlyOutOfRest := by
  intro lastph ph
  by_cases hrest : lastph = 0b11#2
  · subst hrest
    simp only [rotEvent_of_rest, true_and]
  · simp only [rotEvent_of_not_rest hrest, hrest, false_and, if_false]

/-- Settles O44, one lemma about the selection per clause. -/
theorem oneEventIsSelectedPerTick : Obligations.OneEventIsSelectedPerTick := by
  intro pr press rot
  refine ⟨?_, ?_, ?_, ?_⟩
  · rintro rfl - rfl
    exact selectEvent_buttonFirst rot
  · rintro rfl hrot rfl
    exact selectEvent_rotationFirst hrot
  · rintro rfl rfl
    exact selectEvent_of_no_rotation pr
  · rintro rfl
    exact selectEvent_of_no_press pr rot

end Sys2Proof.Machine
end

section
/-! SUPPORT. The hysteresis controller family (43_hysteresis_controller.md R181 to R184, R187): the tests of HYST in their
order, what SETLO, SETHI, HEVAL and their words do, and the statements that follow. -/

namespace Sys2Proof.Machine

/-! ### HYST -/

/-- Without a fault the relay is Off from the high threshold up, whatever the low one is (43_hysteresis_controller.md R183). -/
theorem hyst_of_high {t h : Half} (ht : s16 h ≤ s16 t) (l : Half) (r : Bool) : hyst t l h false r = false := by
  rw [hyst, if_neg Bool.false_ne_true, if_pos ht]

/-- Without a fault, below the high threshold, the relay is On from the low one down (43_hysteresis_controller.md R183). -/
theorem hyst_of_low {t l h : Half} (hh : s16 t < s16 h) (hl : s16 t ≤ s16 l) (r : Bool) : hyst t l h false r = true := by
  rw [hyst, if_neg Bool.false_ne_true, if_neg (Int.not_le.mpr hh), if_pos hl]

/-- Crossed thresholds leave no temperature between them, so the high threshold alone decides (43_hysteresis_controller.md
R187). -/
theorem hyst_of_crossed {l h : Half} (hlh : s16 h ≤ s16 l) (t : Half) (r : Bool) :
    hyst t l h false r = decide (s16 t < s16 h) := by
  by_cases hh : s16 t < s16 h
  · have hl : s16 t ≤ s16 l := by omega
    rw [hyst_of_low hh hl, decide_eq_true hh]
  · rw [hyst_of_high (Int.not_lt.mp hh), decide_eq_false hh]

/-! ### SETLO and SETHI -/

/-- The words of an opcode that names a host command of one 16-bit value, with bits 27:16 must-be-zero, perform that command
(30_encoding.md R72 to R74). -/
theorem threshold_wordsPerform {op : BitVec 4} {cmd : Half → Instr}
    (hnamed : ∀ w, opField w = op → named w = some (cmd (dataField w))) (hport : ∀ v, (cmd v).port = .host)
    (hmbz : ∀ v, (cmd v).mbz = 0x0FFF0000#32) :
    WordsPerform op .host .tick (fun w => w.extractLsb' 16 12 ≠ 0#12) (fun w => cmd (w.extractLsb' 0 16)) := by
  refine wordsPerform_of_named (by decide) hnamed (fun w => hport (dataField w)) (fun w => ?_)
  rw [hmbz]
  exact not_congr (field_zero_iff w 16 12 0x0FFF0000#32 (by decide))

/-- The words of opcode 6 perform SETLO. -/
theorem setlo_wordsPerform :
    WordsPerform 0x6#4 .host .tick (fun w => w.extractLsb' 16 12 ≠ 0#12) (fun w => .setlo (w.extractLsb' 0 16)) :=
  threshold_wordsPerform (fun w hop => by simp only [named, hop]; rfl) (fun _ => rfl) (fun _ => rfl)

/-- The words of opcode 7 perform SETHI. -/
theorem sethi_wordsPerform :
    WordsPerform 0x7#4 .host .tick (fun w => w.extractLsb' 16 12 ≠ 0#12) (fun w => .sethi (w.extractLsb' 0 16)) :=
  threshold_wordsPerform (fun w hop => by simp only [named, hop]; rfl) (fun _ => rfl) (fun _ => rfl)

/-- A response of status OK and value 0 is the zero word (30_encoding.md R80). -/
theorem respond_ok_zero (p : Port) (s : State) : respond p .ok 0#16 s = answered p 0x00000000#32 s := by
  have hword : statusCode .ok ++ 0#28 = 0x00000000#32 := by decide
  rw [respond, responseWord_zero, hword, answered]

/-- Everything SETLO does (43_hysteresis_controller.md R181). -/
theorem exec_setlo (s : State) (v : Half) :
    exec (.setlo v) s = .next (answered .host 0x00000000#32 { s with tlow := v }) := by
  rw [exec, execSetlo, respond_ok_zero]

/-- Everything SETHI does (43_hysteresis_controller.md R182). -/
theorem exec_sethi (s : State) (v : Half) :
    exec (.sethi v) s = .next (answered .host 0x00000000#32 { s with thigh := v }) := by
  rw [exec, execSethi, respond_ok_zero]

/-! ### HEVAL -/

/-- The words of opcode 8 perform HEVAL; its must-be-zero bits are bits 27:17 (30_encoding.md R72 to R74). -/
theorem heval_wordsPerform :
    WordsPerform 0x8#4 .host .tick (fun w => w.extractLsb' 17 11 ≠ 0#11)
      (fun w => .heval (w.getLsbD 16) (w.extractLsb' 0 16)) := by
  refine wordsPerform_of_named (by decide) (fun w hop => ?_) (fun _ => rfl)
    (fun w => not_congr (field_zero_iff w 17 11 0x0FFE0000#32 (by decide)))
  simp only [named, hop]
  rfl

/-- The response word of HEVAL: whether the relay changed above the relay, zeros above both (30_encoding.md R80, R81). -/
theorem responseWord_relay (changed relay : Bool) :
    responseWord .ok (0#14 ++ BitVec.ofBool changed ++ BitVec.ofBool relay) =
      0#30 ++ BitVec.ofBool changed ++ BitVec.ofBool relay := by
  cases changed <;> cases relay <;> decide

/-- Everything HEVAL does, from the relay state it drives (43_hysteresis_controller.md R184). -/
theorem exec_heval (s : State) (fault : Bool) (v : Half) :
    exec (.heval fault v) s = .next (answered .host
      (0#30 ++ BitVec.ofBool (relayAfter fault v s != s.relay) ++ BitVec.ofBool (relayAfter fault v s))
      { s with relay := relayAfter fault v s, trace := s.trace ++ [.relay (relayAfter fault v s)] }) := by
  rw [exec, execHeval, respond, responseWord_relay]
  rfl

/-! ### The statements -/

/-- Settles O25, by everything SETLO does and what the words of its opcode perform. -/
theorem setloWritesTheLowThreshold : Obligations.SetloWritesTheLowThreshold := ⟨exec_setlo, setlo_wordsPerform⟩

/-- Settles O26, by everything SETHI does and what the words of its opcode perform. -/
theorem sethiWritesTheHighThreshold : Obligations.SethiWritesTheHighThreshold := ⟨exec_sethi, sethi_wordsPerform⟩

/-- Settles O27: the relay state HEVAL drives is the statement's order of tests, and its changed bit their difference. -/
theorem hevalDrivesTheRelay : Obligations.HevalDrivesTheRelay := by
  refine ⟨fun s fault v => ?_, heval_wordsPerform⟩
  intro new
  have hnew : relayAfter fault v s = new := rfl
  have hchanged : (new != s.relay) = decide (new ≠ s.relay) := by
    cases new <;> cases s.relay <;> rfl
  rw [exec_heval, hnew, hchanged]

/-- Settles O50: HEVAL leaves the relay at HYST, which crossed thresholds reduce to one test. -/
theorem crossedThresholdsHaveNoDeadBand : Obligations.CrossedThresholdsHaveNoDeadBand := by
  intro s v hcrossed
  obtain ⟨t, hexec, hrelay, -⟩ := execHeval_spec false v s
  exact ⟨t, hexec, hrelay.trans (hyst_of_crossed hcrossed v s.relay)⟩

end Sys2Proof.Machine
end

section
/-! SUPPORT. The tick and control family (44_tick_and_control.md R200, R202, R203): the response word of a value, what NOP, TICK
and RDREG and their words do, and the statements that follow. -/

namespace Sys2Proof.Machine

/-! ### Response words -/

/-- Zeros above a vector do not change its number. -/
theorem zeroAppend_toNat (k : Nat) {m : Nat} (v : BitVec m) : (0#k ++ v).toNat = v.toNat := by
  rw [BitVec.toNat_append, BitVec.toNat_ofNat, Nat.zero_mod, Nat.zero_shiftLeft, Nat.zero_or]

/-- The number of a vector does not depend on how many zeros stand above it. -/
theorem zeroAppend_toNat_eq (j k : Nat) {m : Nat} (v : BitVec m) : (0#j ++ v).toNat = (0#k ++ v).toNat := by
  rw [zeroAppend_toNat, zeroAppend_toNat]

/-- The number of two fields does not depend on how many zeros stand above them. -/
theorem zeroAppend_append_toNat_eq (j k : Nat) {l m : Nat} (u : BitVec l) (v : BitVec m) :
    (0#j ++ u ++ v).toNat = (0#k ++ u ++ v).toNat := by
  rw [BitVec.toNat_append (0#j ++ u), BitVec.toNat_append (0#k ++ u), zeroAppend_toNat_eq j k u]

/-- A response of status OK is the word that stands for the same number as its value (30_encoding.md R80). -/
theorem responseWord_ok_of_toNat_eq {v : Half} {r : Word} (h : v.toNat = r.toNat) : responseWord .ok v = r := by
  rw [responseWord_ok]
  apply BitVec.eq_of_toNat_eq
  rw [zeroAppend_toNat, h]

/-- A command that ends with status OK and changes nothing answers any word that stands for the same number as its value. -/
theorem respond_ok_of_toNat_eq {v : Half} {r : Word} (h : v.toNat = r.toNat) (p : Port) (s : State) :
    respond p .ok v s = answered p r s := by
  rw [respond, responseWord_ok_of_toNat_eq h, answered]

/-! ### The words of an opcode with one must-be-zero field -/

/-- An opcode whose words all name their command `cmd w`, and whose must-be-zero bits are the `len` bits from `lo` up: what its
words do (30_encoding.md R72 to R74, R77). -/
theorem wordsPerform_of_mbz_field {op : BitVec 4} {own other : Port} {lo len : Nat} {m : Word} {cmd : Word → Instr}
    (hother : other ≠ own) (hnamed : ∀ w, opField w = op → named w = some (cmd w)) (hport : ∀ w, (cmd w).port = own)
    (hmbz : ∀ w, (cmd w).mbz = m) (hm : m = (BitVec.allOnes len).setWidth 32 <<< lo) :
    WordsPerform op own other (fun w => w.extractLsb' lo len ≠ 0#len) cmd := by
  refine wordsPerform_of_named hother hnamed hport (fun w => ?_)
  rw [hmbz]
  exact not_congr (field_zero_iff w lo len m hm)

/-! ### NOP -/

/-- The words of opcode 0 perform NOP; its must-be-zero bits are bits 27:0. -/
theorem nop_wordsPerform : WordsPerform 0x0#4 .host .tick (fun w => w.extractLsb' 0 28 ≠ 0#28) (fun _ => .nop) :=
  wordsPerform_of_mbz_field (by decide) (fun w hop => by simp only [named, hop]; rfl) (fun _ => rfl) (fun _ => rfl)
    (by decide)

/-- Everything NOP does (44_tick_and_control.md R202). -/
theorem exec_nop (s : State) : exec .nop s = .next (answered .host 0x00000000#32 s) := by
  rw [exec, execNop, respond_ok_zero]

/-! ### TICK -/

/-- The words of opcode 1 perform TICK; its must-be-zero bits are bits 27:3. -/
theorem tick_wordsPerform :
    WordsPerform 0x1#4 .tick .host (fun w => w.extractLsb' 3 25 ≠ 0#25)
      (fun w => .tick (w.getLsbD 2) (w.getLsbD 1) (w.getLsbD 0)) :=
  wordsPerform_of_mbz_field (by decide) (fun w hop => by simp only [named, hop]; rfl) (fun _ => rfl) (fun _ => rfl)
    (by decide)

/-- The multiplexer's step changes nothing that the event of the tick is computed from, so the decoder may as well read the
state before it (44_tick_and_control.md R200). -/
theorem tickEvent_muxTick (s : State) (btn a b : Bool) : tickEvent (muxTick s) btn a b = tickEvent s btn a b := by
  rw [muxTick_spec, tickEvent, tickEvent]

/-- The response word of TICK: the event code above the new index, zeros above both (30_encoding.md R80, R81). -/
theorem responseWord_eventIndex (e : Event) (i : BitVec 4) :
    responseWord .ok (0#10 ++ eventCode e ++ i) = 0#26 ++ eventCode e ++ i :=
  responseWord_ok_of_toNat_eq (zeroAppend_append_toNat_eq 10 26 (eventCode e) i)

/-- Everything TICK does, from the index it moves to and the event it selects (44_tick_and_control.md R200). -/
theorem exec_tick (s : State) (btn a b : Bool) :
    exec (.tick btn a b) s = .next (answered .tick (0#26 ++ eventCode (tickEvent s btn a b) ++ nextIndex s.cfg s.idx)
      { s with
        idx := nextIndex s.cfg s.idx
        en := lineOn (lineOff s.en s.idx) (nextIndex s.cfg s.idx)
        segout := Memory.read s.buf (nextIndex s.cfg s.idx).toNat
        lastph := phasePair a b
        lastbtn := btn
        mbox := if tickEvent s btn a b = .none then s.mbox else tickEvent s btn a b
        trace := s.trace ++ (.digitOff s.idx ::
          (frame (Memory.read s.buf (nextIndex s.cfg s.idx).toNat) ++ [.digitOn (nextIndex s.cfg s.idx)])) }) := by
  rw [exec, execTick, respond, decTick_spec, tickEvent_muxTick, responseWord_eventIndex, muxTick_spec, answered]

/-! ### RDREG -/

/-- The words of opcode 9 perform RDREG; its must-be-zero bits are bits 23:0. -/
theorem rdreg_wordsPerform :
    WordsPerform 0x9#4 .host .tick (fun w => w.extractLsb' 0 24 ≠ 0#24) (fun w => .rdreg (w.extractLsb' 24 4)) :=
  wordsPerform_of_mbz_field (by decide) (fun w hop => by simp only [named, hop]; rfl) (fun _ => rfl) (fun _ => rfl)
    (by decide)

/-- Everything RDREG does at a register of the map: its value is answered, zero-extended (44_tick_and_control.md R203). -/
theorem exec_rdreg {s : State} {sel : BitVec 4} {v : Half} {r : Word} (hv : regValue s sel = some v)
    (hr : v.toNat = r.toNat) : exec (.rdreg sel) s = .next (answered .host r s) := by
  simp only [exec, execRdreg, hv, respond_ok_of_toNat_eq hr]

/-- RDREG of a reserved register number answers ERR_FIELD with value 0, and nothing else changes (44_tick_and_control.md R203,
60_exceptions.md R221). -/
theorem exec_rdreg_reserved {s : State} {sel : BitVec 4} (h : 10 ≤ sel.toNat) :
    exec (.rdreg sel) s = .next (answered .host 0x30000000#32 s) := by
  have hw : (Instr.rdreg sel).wellFormed s.cfg.n = false := decide_eq_false (by omega)
  have hcode : statusCode .errField ++ 0#28 = 0x30000000#32 := by decide
  rw [exec_of_not_wellFormed hw, raise_eq_answered, operandError, hcode]
  rfl

/-- The mask of register EN keeps the lines below N (44_tick_and_control.md R203). -/
theorem lineMask_getLsbD (n : Nat) {k : Nat} (hk : k < 16) : (lineMask n).getLsbD k = decide (k < n) := by
  rw [lineMask, BitVec.getLsbD_ofNat, Nat.testBit_two_pow_sub_one, decide_eq_true hk, Bool.true_and]

/-- Register CFG0 holds STEP in bits 11:8 above N in bits 4:0 (44_tick_and_control.md R203). -/
theorem cfg0_toNat {n step : Nat} (hn : n < 2 ^ 5) (hstep : step < 2 ^ 4) :
    (0#4 ++ BitVec.ofNat 4 step ++ 0#3 ++ BitVec.ofNat 5 n).toNat = n + 256 * step := by
  have hhigh : (0#4 ++ BitVec.ofNat 4 step).toNat = step := by
    rw [zeroAppend_toNat, BitVec.toNat_ofNat, Nat.mod_eq_of_lt hstep]
  rw [BitVec.toNat_append, BitVec.toNat_append (0#4 ++ BitVec.ofNat 4 step), hhigh, BitVec.toNat_ofNat, BitVec.toNat_ofNat,
    Nat.zero_mod, Nat.or_zero, Nat.mod_eq_of_lt hn, ← Nat.shiftLeft_add_eq_or_of_lt hn, Nat.shiftLeft_eq, Nat.shiftLeft_eq]
  omega

/-- The bit of EVENT_PRIORITY in register CFG1 is set for RotationFirst (44_tick_and_control.md R203). -/
theorem priorityBit_eq (p : EventPriority) : priorityBit p = decide (p = .rotationFirst) := by cases p <;> rfl

/-! ### The statements -/

/-- Settles O19, by everything NOP does and what the words of its opcode perform. -/
theorem nopAnswersOkAndChangesNothing : Obligations.NopAnswersOkAndChangesNothing := ⟨exec_nop, nop_wordsPerform⟩

/-- Settles O20: the statement is everything TICK does, with `nextIndex`, `lineOff`, `lineOn`, `frame`, `phasePair` and
`tickEvent` written out as their definitions have it. -/
theorem tickAdvancesDisplayThenSamplesEncoder : Obligations.TickAdvancesDisplayThenSamplesEncoder :=
  ⟨exec_tick, tick_wordsPerform⟩

/-- Settles O28, register by register: EN by the bits of its mask, CFG0 as a number, the reserved numbers as operands out of
range. -/
theorem rdregAnswersTheRegisterMap : Obligations.RdregAnswersTheRegisterMap := by
  refine ⟨fun s => ⟨?idx, ?en, ?segout, ?dec, ?mbox, ?relay, ?tlow, ?thigh, fun hwf => ?cfg0, ?cfg1,
    fun _ hsel => exec_rdreg_reserved hsel⟩, rdreg_wordsPerform⟩
  case idx => exact exec_rdreg rfl (zeroAppend_toNat_eq 12 28 s.idx)
  case en =>
    refine ⟨s.en &&& lineMask s.cfg.n, exec_rdreg rfl (zeroAppend_toNat 16 _).symm, fun k hk => ?_⟩
    rw [BitVec.getLsbD_and, lineMask_getLsbD _ hk, Bool.and_comm]
  case segout => exact exec_rdreg rfl (zeroAppend_toNat_eq 8 24 s.segout)
  case dec => exact exec_rdreg rfl (zeroAppend_append_toNat_eq 13 29 (BitVec.ofBool s.lastbtn) s.lastph)
  case mbox => exact exec_rdreg rfl (zeroAppend_toNat_eq 14 30 (eventCode s.mbox))
  case relay => exact exec_rdreg rfl (zeroAppend_toNat_eq 15 31 (BitVec.ofBool s.relay))
  case tlow => exact exec_rdreg rfl (zeroAppend_toNat 16 s.tlow).symm
  case thigh => exact exec_rdreg rfl (zeroAppend_toNat 16 s.thigh).symm
  case cfg0 =>
    obtain ⟨-, hn, -, hstep, -⟩ := hwf
    refine exec_rdreg rfl ((cfg0_toNat (by omega) (by omega)).trans ?_)
    rw [BitVec.toNat_ofNat, Nat.mod_eq_of_lt (by omega)]
  case cfg1 =>
    rw [← priorityBit_eq]
    exact exec_rdreg rfl (zeroAppend_append_toNat_eq 14 30 (BitVec.ofBool (priorityBit s.cfg.priority)) _)

end Sys2Proof.Machine
end

section
/-! SUPPORT. The exceptions family (60_exceptions.md R220 to R222): the cause behind each error of the decoder and of the operand
checks, the status every word earns, and the statements that follow. -/

namespace Sys2Proof.Machine

/-! ### The causes of the errors -/

/-- A word that names an instruction has a defined opcode (30_encoding.md R75). -/
theorem op_lt_of_named {w : Word} {i : Instr} (h : named w = some i) : (w.extractLsb' 28 4).toNat < 10 := by
  have hop : ¬ 10 ≤ (opField w).toNat := by rw [← named_none_iff, h]; nofun
  exact Nat.lt_of_not_le hop

/-- Where the operands of the named instruction are in range, the word has neither a reserved register number nor a digit index
of N or more (30_encoding.md R74). -/
theorem named_wellFormed {w : Word} {i : Instr} {n : Nat} (h : named w = some i) (hw : i.wellFormed n = true) :
    let op := (opField w).toNat
    let sel := (selField w).toNat
    ¬ (op = 9 ∧ 10 ≤ sel) ∧ ¬ ((op = 2 ∨ op = 3 ∨ op = 4) ∧ n ≤ sel) := by
  unfold named at h
  split at h <;> cases h <;> simp only [Instr.wellFormed, decide_eq_true_eq] at hw <;> omega

/-- Where an operand of the named instruction is out of range, the error it raises is the one of its cause: ERR_FIELD for the
register number of RDREG, ERR_INDEX for the digit index of WRDIG, RDDIG and WRCHR (30_encoding.md R74). -/
theorem named_not_wellFormed {w : Word} {i : Instr} {n : Nat} (h : named w = some i) (hw : i.wellFormed n = false) :
    let op := (opField w).toNat
    let sel := (selField w).toNat
    (operandError i = .errField ∧ op = 9 ∧ 10 ≤ sel) ∨
    (operandError i = .errIndex ∧ (op = 2 ∨ op = 3 ∨ op = 4) ∧ n ≤ sel) := by
  unfold named at h
  split at h <;> cases h <;> simp only [Instr.wellFormed, decide_eq_false_iff_not, reduceCtorEq] at hw
  case h_10 hop => exact .inl ⟨rfl, hop, by omega⟩
  all_goals exact .inr ⟨rfl, by omega, by omega⟩

/-! ### The status a word earns -/

/-- The error of a word that does not decode is the first of opcode, port and must-be-zero bits that is wrong
(60_exceptions.md R222). -/
theorem statusIs_of_decode_error {w : Word} {p : Port} {st : Status} (h : decode w p = .error st) (n : Nat) :
    StatusIs n p w (statusCode st) := by
  cases hn : named w with
  | none =>
    simp only [decode, hn, Except.error.injEq] at h
    subst h
    exact .inl ⟨(named_none_iff w).mp hn, rfl⟩
  | some i =>
    have hop := op_lt_of_named hn
    simp only [decode, hn] at h
    split_ifs at h with hport hmbz <;> cases h
    · exact .inr (.inl ⟨hop, mt (onItsPort_iff hn p).mp hport, rfl⟩)
    · rw [named_mbz hn] at hmbz
      exact .inr (.inr (.inl ⟨hop, (onItsPort_iff hn p).mpr (not_not.mp hport), .inl hmbz, rfl⟩))

/-- A word that decodes has passed the checks of opcode, port and must-be-zero bits (30_encoding.md R77). -/
theorem checks_of_decode_ok {w : Word} {p : Port} {i : Instr} (h : decode w p = .ok i) :
    named w = some i ∧ (w.extractLsb' 28 4).toNat < 10 ∧ onItsPort w p ∧ w &&& mbzOf w = 0#32 := by
  obtain ⟨hn, hport, hmbz⟩ := decode_ok h
  exact ⟨hn, op_lt_of_named hn, (onItsPort_iff hn p).mpr hport, named_mbz hn ▸ hmbz⟩

/-- A word that decodes earns OK where the operands of its command are in range. -/
theorem statusIs_of_wellFormed {w : Word} {p : Port} {i : Instr} {n : Nat} (h : decode w p = .ok i)
    (hw : i.wellFormed n = true) : StatusIs n p w (statusCode .ok) := by
  obtain ⟨hn, hop, hport, hmbz⟩ := checks_of_decode_ok h
  obtain ⟨hfield, hindex⟩ := named_wellFormed hn hw
  exact .inr (.inr (.inr (.inr ⟨hop, hport, hmbz, hfield, hindex, rfl⟩)))

/-- A word that decodes earns the error of its command where an operand is out of range. -/
theorem statusIs_of_not_wellFormed {w : Word} {p : Port} {i : Instr} {n : Nat} (h : decode w p = .ok i)
    (hw : i.wellFormed n = false) : StatusIs n p w (statusCode (operandError i)) := by
  obtain ⟨hn, hop, hport, hmbz⟩ := checks_of_decode_ok h
  obtain ⟨herr, hfield⟩ | ⟨herr, hindex, hsel⟩ := named_not_wellFormed hn hw <;> rw [herr]
  · exact .inr (.inr (.inl ⟨hop, hport, .inr hfield, rfl⟩))
  · exact .inr (.inr (.inr (.inl ⟨hop, hport, hmbz, hindex, hsel, rfl⟩)))

/-- Every word on every port answers one response, whose status is the one its cause gives. -/
theorem perform_statusIs (p : Port) (w : Word) (s : State) :
    ∃ st v u, perform p w s = .next (respond p st v u) ∧ u.responses = s.responses ∧
      StatusIs s.cfg.n p w (statusCode st) := by
  cases hd : decode w p with
  | error st =>
    refine ⟨st, 0#16, s, ?_, rfl, statusIs_of_decode_error hd s.cfg.n⟩
    simp only [perform, hd, raise]
  | ok i =>
    obtain ⟨-, rfl, -⟩ := decode_ok hd
    rw [perform_of_ok hd]
    cases hw : i.wellFormed s.cfg.n with
    | true =>
      obtain ⟨v, u, he, hu⟩ := exec_of_wellFormed hw
      exact ⟨.ok, v, u, he, hu, statusIs_of_wellFormed hd hw⟩
    | false => exact ⟨operandError i, 0#16, s, exec_of_not_wellFormed hw, rfl, statusIs_of_not_wellFormed hd hw⟩

/-! ### The statements -/

/-- Settles O8, by the status every word earns and the status field of a response word. -/
theorem statusFollowsCauseAndPriority : Obligations.StatusFollowsCauseAndPriority := by
  intro p w s
  obtain ⟨st, v, u, hp, hu, hst⟩ := perform_statusIs p w s
  have hstatus := (responseWord_fields st v).1
  refine ⟨_, responseWord st v, hp, by rw [respond_responses, hu], ?_, ?_⟩ <;> rw [hstatus]
  · exact hst
  · exact statusCode_le st

/-- Settles O9: the response is the one that performing the word returned, and where its status is not OK the word was raised
on the unchanged state. -/
theorem failedCommandsHaveNoEffect : Obligations.FailedCommandsHaveNoEffect := by
  intro p w r s t ht hr hne
  obtain ⟨st, v, u, hp, hu, herr, -⟩ := perform_answers p w s
  obtain rfl : respond p st v u = t := by simpa only [hp, Host.Outcome.next.injEq] using ht
  obtain rfl : responseWord st v = r := by simpa [hu] using hr
  have hstatus := (responseWord_fields st v).1
  have hst : st ≠ .ok := by
    rintro rfl
    exact hne hstatus
  obtain ⟨rfl, rfl⟩ := herr hst
  exact ⟨rfl, by rw [hstatus, responseWord_zero]⟩

end Sys2Proof.Machine
end

section
/-! SUPPORT. The reset family (70_reset_and_hazards.md R250 to R252): the step that takes an asserted reset, what the reset does
to the output levels and to the relay toggles of the trace, and the statement that follows. -/

namespace Sys2Proof.Machine

/-- An asserted reset is taken whichever port would be served (70_reset_and_hazards.md R251). -/
theorem stepWith_of_resetPin {s : State} (h : s.resetPin = true) (pick : Port) :
    stepWith pick s = .next (applyReset s) := by
  rw [stepWith, if_pos h]

/-- The step of a block whose reset input is asserted is the reset (70_reset_and_hazards.md R251). -/
theorem step_of_resetPin {s : State} (h : s.resetPin = true) : step s = .next (applyReset s) :=
  stepWith_of_resetPin h _

/-- Every output is at its reset level after a reset (70_reset_and_hazards.md R252). -/
@[simp] theorem outputs_applyReset (s : State) :
    outputs (applyReset s) = { enable := 0#16, segments := 0x00#8, relay := false, evtPending := false } := rfl

/-- A Reset event at the end of a trace is one more toggle where the trace had left the relay line On
(70_reset_and_hazards.md R252). -/
theorem relayToggles_append_reset (t : List OutEvent) :
    relayToggles (t ++ [.reset]) = relayToggles t + (if (linesAfter t).relay then 1 else 0) := by
  rw [relayToggles_append]
  simp only [togglesFrom, Nat.add_zero]

/-! ### The statement -/

/-- Settles O16: the step is the reset, whose output levels, trace and relay toggles are those of the lemmas above. -/
theorem resetPutsOutputsToResetLevels : Obligations.ResetPutsOutputsToResetLevels := by
  intro s hreset
  refine ⟨applyReset s, step_of_resetPin hreset, outputs_applyReset s, applyReset_trace s, ?toggles⟩
  case toggles => rw [applyReset_trace, relayToggles_append_reset]

end Sys2Proof.Machine
end

section
/-! SUPPORT. The round trip of the encoding (30_encoding.md R71 to R77, R87): a word whose must-be-zero bits are zero decodes to
the command it names, the fields of a masked word, and the statements that follow. -/

namespace Sys2Proof

/-! ### From a command to its word and back -/

/-- The word of every command has its must-be-zero bits zero (30_encoding.md R73). -/
theorem encode_mbz (i : Instr) : encode i &&& i.mbz = 0#32 := by
  cases i with
  | nop => exact Laws.EncodeKeepsReservedZero.nop
  | tick btn a b => exact Laws.EncodeKeepsReservedZero.tick btn a b
  | wrdig sel byte => exact Laws.EncodeKeepsReservedZero.wrdig sel byte
  | rddig sel => exact Laws.EncodeKeepsReservedZero.rddig sel
  | wrchr sel e dp code => exact Laws.EncodeKeepsReservedZero.wrchr sel e dp code
  | getevt => exact Laws.EncodeKeepsReservedZero.getevt
  | setlo threshold => exact Laws.EncodeKeepsReservedZero.setlo threshold
  | sethi threshold => exact Laws.EncodeKeepsReservedZero.sethi threshold
  | heval fault temperature => exact Laws.EncodeKeepsReservedZero.heval fault temperature
  | rdreg sel => exact Laws.EncodeKeepsReservedZero.rdreg sel

/-- A named word with its must-be-zero bits zero decodes on the port of its instruction (30_encoding.md R77). -/
theorem decode_of_named {w : Word} {i : Instr} (hn : named w = some i) (hm : w &&& i.mbz = 0#32) :
    decode w i.port = .ok i := by
  simp [decode, hn, hm]

/-- A named word on another port than its instruction's answers ERR_PORT, whatever its must-be-zero bits (30_encoding.md
R77). -/
theorem decode_of_wrong_port {w : Word} {i : Instr} {p : Port} (hn : named w = some i) (hp : p ≠ i.port) :
    decode w p = .error .errPort := by
  simp [decode, hn, hp]

/-! ### The fields of a masked word -/

/-- The low byte of the data field, zero-extended. -/
theorem dataField_lowByte (w : Word) : dataField w &&& 0x00FF#16 = 0#8 ++ dataByte w := by
  apply BitVec.eq_of_getLsbD_eq
  intro k hk
  simp only [dataField, dataByte, BitVec.getLsbD_and, BitVec.getLsbD_append, BitVec.getLsbD_extractLsb']
  interval_cases k <;> simp

/-- The low three bits of the data field, zero-extended: the pins of a TICK (30_encoding.md R74). -/
theorem dataField_pins (w : Word) :
    dataField w &&& 0x0007#16 =
      0#13 ++ BitVec.ofBool (w.getLsbD 2) ++ BitVec.ofBool (w.getLsbD 1) ++ BitVec.ofBool (w.getLsbD 0) := by
  apply BitVec.eq_of_getLsbD_eq
  intro k hk
  simp only [dataField, BitVec.getLsbD_and, BitVec.getLsbD_append, BitVec.getLsbD_extractLsb']
  interval_cases k <;> simp

/-- A word masked by the command word of some masks is the command word of its masked fields (30_encoding.md R71). -/
theorem and_command (w : Word) (sel : BitVec 4) (f1 f0 : Bool) (d : Half) :
    w &&& command 0xF#4 sel f1 f0 d =
      command (opField w) (selField w &&& sel) (f1Field w && f1) (f0Field w && f0) (dataField w &&& d) := by
  apply BitVec.eq_of_getLsbD_eq
  intro k hk
  simp only [BitVec.getLsbD_and, command_getLsbD, opField, selField, f1Field, f0Field, dataField,
    BitVec.getLsbD_extractLsb']
  interval_cases k <;> simp

/-- The bits of a word that its command reads: all of the opcode, and of each other field the bits that hold an operand
(30_encoding.md R72, R74). -/
def Instr.operandMask : Instr → Word
  | .nop => command 0xF#4 0x0#4 false false 0x0000#16
  | .tick _ _ _ => command 0xF#4 0x0#4 false false 0x0007#16
  | .wrdig _ _ => command 0xF#4 0xF#4 false false 0x00FF#16
  | .rddig _ => command 0xF#4 0xF#4 false false 0x0000#16
  | .wrchr _ _ _ _ => command 0xF#4 0xF#4 true true 0x00FF#16
  | .getevt => command 0xF#4 0x0#4 false false 0x0000#16
  | .setlo _ => command 0xF#4 0x0#4 false false 0xFFFF#16
  | .sethi _ => command 0xF#4 0x0#4 false false 0xFFFF#16
  | .heval _ _ => command 0xF#4 0x0#4 false true 0xFFFF#16
  | .rdreg _ => command 0xF#4 0xF#4 false false 0x0000#16

/-- Every bit of a word is read as an operand or must be zero (30_encoding.md R73). -/
theorem operandMask_eq (i : Instr) : i.operandMask = ~~~i.mbz := by
  cases i <;> simp only [Instr.operandMask, Instr.mbz] <;> decide

/-- The word of the instruction that a word names is that word with only the bits that the instruction reads. -/
theorem encode_of_named {w : Word} {i : Instr} (h : named w = some i) : encode i = w &&& i.operandMask := by
  have hop : ∀ k : Nat, (opField w).toNat = k → opField w = BitVec.ofNat 4 k := by
    rintro k rfl
    simp
  have hsel : selField w &&& 0xF#4 = selField w := BitVec.and_allOnes
  have hdata : dataField w &&& 0xFFFF#16 = dataField w := BitVec.and_allOnes
  unfold named at h
  split at h <;> cases h
  all_goals
    next hk => simp [encode, Instr.operandMask, and_command, hop _ hk, hsel, hdata, dataField_lowByte, dataField_pins]

/-! ### The statements -/

/-- Settles O1, by evaluating the decoder on the eleven words. -/
theorem writtenWordsDecode : Obligations.WrittenWordsDecode := by
  unfold Obligations.WrittenWordsDecode
  decide

/-- Settles O2: the word of a command names the command and has its must-be-zero bits zero. -/
theorem decodeOfEncodeIsTheCommand : Obligations.DecodeOfEncodeIsTheCommand :=
  fun i => decode_of_named (named_encode i) (encode_mbz i)

/-- Settles O3: the must-be-zero bits of a performed word are zero, and the command's word holds all its other bits. -/
theorem encodeOfDecodeIsTheWord : Obligations.EncodeOfDecodeIsTheWord := by
  intro w p i h
  obtain ⟨hn, rfl, hm⟩ := decode_ok h
  refine ⟨?_, rfl⟩
  calc encode i = w &&& ~~~i.mbz := by rw [encode_of_named hn, operandMask_eq]
    _ = (w &&& i.mbz) ||| (w &&& ~~~i.mbz) := by rw [hm, BitVec.zero_or]
    _ = w := by rw [← BitVec.and_or_distrib_left, BitVec.or_not_self, BitVec.and_allOnes]

/-- Settles O4, one lemma about the decoder per check; a word that passes them is the word of its command by O3. -/
theorem decodeChecksOpcodePortThenField : Obligations.DecodeChecksOpcodePortThenField := by
  intro w p
  refine ⟨fun hop => ?opcode, fun hop hp => ?port, fun hop hp hm => ?field, fun hop hp hm => ?decodes⟩
  case opcode => exact (decode_errOpcode_iff w p).mpr ((named_none_iff w).mpr hop)
  all_goals obtain ⟨i, hi⟩ := exists_named hop
  all_goals rw [Machine.onItsPort_iff hi] at hp
  case port => exact decode_of_wrong_port hi hp
  all_goals subst hp
  all_goals rw [← Machine.named_mbz hi] at hm
  case field => exact decode_of_mbz_set hi hm
  case decodes =>
    have hd := decode_of_named hi hm
    exact ⟨i, hd, (encodeOfDecodeIsTheWord w _ i hd).1⟩

end Sys2Proof
end

section
/-! SUPPORT. Steps and commands, said once for all commands: what a command does to the state beside its response, which word a
step takes, the properties that every step keeps, and the statements that follow from these alone. -/

namespace Sys2Proof.Machine

/-! ### The effect of a command -/

/-- What a command does to the state, its response left out. A command with an operand out of range does nothing
(60_exceptions.md R221). -/
def effect : Instr → State → State
  | .nop, s => s
  | .tick btn a b, s => decTick btn a b (muxTick s)
  | .wrdig sel byte, s => if inRange s.cfg sel then writeDigit sel byte s else s
  | .rddig _, s => s
  | .wrchr sel e dp code, s =>
    if inRange s.cfg sel then writeDigit (phys s.cfg sel) (charByte s.cfg code dp e) s else s
  | .getevt, s => { s with mbox := .none }
  | .setlo threshold, s => { s with tlow := threshold }
  | .sethi threshold, s => { s with thigh := threshold }
  | .heval fault temperature, s => driveRelay (relayAfter fault temperature s) s
  | .rdreg _, s => s

/-- Every command, in every state, has its effect and answers one response on its port. -/
theorem exec_effect (i : Instr) (s : State) : ∃ r, exec i s = .next (answered i.port r (effect i s)) := by
  cases i with
  | nop | tick | getevt | setlo | sethi | heval => exact ⟨_, rfl⟩
  | wrdig | rddig | wrchr => simp only [exec, execWrdig, execRddig, execWrchr, effect]; split <;> exact ⟨_, rfl⟩
  | rdreg => simp only [exec, execRdreg, effect]; split <;> exact ⟨_, rfl⟩

/-- A command that answers a next state answers its effect, with one response on its port. -/
theorem exec_next {i : Instr} {s t : State} (h : exec i s = .next t) : ∃ r, t = answered i.port r (effect i s) := by
  obtain ⟨r, hr⟩ := exec_effect i s
  rw [h, Host.Outcome.next.injEq] at hr
  exact ⟨r, hr⟩

/-- The events a command appends to the output trace (10_state.md R36). -/
def emitted : Instr → State → List OutEvent
  | .tick _ _ _, s => .digitOff s.idx ::
      (frame (Memory.read s.buf (nextIndex s.cfg s.idx).toNat) ++ [.digitOn (nextIndex s.cfg s.idx)])
  | .heval fault temperature, s => [.relay (relayAfter fault temperature s)]
  | _, _ => []

/-- A write under a condition changes at most the buffer. -/
theorem writeDigit_if (p : Prop) [Decidable p] (d : BitVec 4) (b : Byte) (s : State) :
    (if p then writeDigit d b s else s) = { s with buf := if p then Memory.write s.buf d.toNat b else s.buf } := by
  split <;> rfl

/-- The trace after a command is the old one with the command's events appended (10_state.md R36). -/
theorem effect_trace (i : Instr) (s : State) : (effect i s).trace = s.trace ++ emitted i s := by
  cases i with
  | tick btn a b => simp only [effect, emitted, decTick_spec, muxTick_spec]
  | heval fault v => rfl
  | wrdig | wrchr => simp only [effect, emitted, writeDigit_if, List.append_nil]
  | _ => exact (List.append_nil _).symm

/-- No command changes the configuration (00_scope.md R7). -/
@[simp] theorem effect_cfg (i : Instr) (s : State) : (effect i s).cfg = s.cfg := by
  cases i with
  | wrdig | wrchr => simp only [effect, writeDigit_if]
  | _ => rfl

/-! ### The elements a command leaves unchanged (10_state.md R20) -/

/-- Only a TICK writes the index, the lines, the segments and the samples. -/
theorem effect_of_not_tick {i : Instr} (h : isTick i = false) (s : State) :
    (effect i s).idx = s.idx ∧ (effect i s).en = s.en ∧ (effect i s).segout = s.segout ∧
      (effect i s).lastph = s.lastph ∧ (effect i s).lastbtn = s.lastbtn := by
  cases i with
  | tick => cases h
  | wrdig | wrchr => simp only [effect, writeDigit_if, and_self]
  | _ => exact ⟨rfl, rfl, rfl, rfl, rfl⟩

/-- Only WRDIG and WRCHR write the buffer. -/
theorem effect_buf {i : Instr} (hd : ∀ sel byte, i ≠ .wrdig sel byte) (hc : ∀ sel e dp code, i ≠ .wrchr sel e dp code)
    (s : State) : (effect i s).buf = s.buf := by
  cases i with
  | wrdig sel byte => exact absurd rfl (hd sel byte)
  | wrchr sel e dp code => exact absurd rfl (hc sel e dp code)
  | _ => rfl

/-- Only TICK and GETEVT write the mailbox. -/
theorem effect_mbox {i : Instr} (ht : isTick i = false) (hg : i ≠ .getevt) (s : State) : (effect i s).mbox = s.mbox := by
  cases i with
  | tick => cases ht
  | getevt => exact absurd rfl hg
  | wrdig | wrchr => simp only [effect, writeDigit_if]
  | _ => rfl

/-- Only HEVAL writes the relay. -/
theorem effect_relay {i : Instr} (h : ∀ fault v, i ≠ .heval fault v) (s : State) : (effect i s).relay = s.relay := by
  cases i with
  | heval fault v => exact absurd rfl (h fault v)
  | wrdig | wrchr => simp only [effect, writeDigit_if]
  | _ => rfl

/-- Only SETLO writes the low threshold. -/
theorem effect_tlow {i : Instr} (h : ∀ v, i ≠ .setlo v) (s : State) : (effect i s).tlow = s.tlow := by
  cases i with
  | setlo v => exact absurd rfl (h v)
  | wrdig | wrchr => simp only [effect, writeDigit_if]
  | _ => rfl

/-- Only SETHI writes the high threshold. -/
theorem effect_thigh {i : Instr} (h : ∀ v, i ≠ .sethi v) (s : State) : (effect i s).thigh = s.thigh := by
  cases i with
  | sethi v => exact absurd rfl (h v)
  | wrdig | wrchr => simp only [effect, writeDigit_if]
  | _ => rfl

theorem isTick_iff {i : Instr} : isTick i = true ↔ ∃ btn a b, i = .tick btn a b := by
  cases i <;> simp [isTick]

/-! ### The word a step takes (20_memory.md R57) -/

theorem takeWord_none {s : State} (hh : s.hostPort = []) (ht : s.tickPort = []) (pick : Port) :
    takeWord pick s = none := by
  simp only [takeWord, hh, ht]

theorem takeWord_hostOnly {s : State} {w : Word} {ws : List Word} (hh : s.hostPort = w :: ws) (ht : s.tickPort = [])
    (pick : Port) : takeWord pick s = some (.host, w, { s with hostPort := ws }) := by
  simp only [takeWord, hh, ht]

theorem takeWord_tickOnly {s : State} {w : Word} {ws : List Word} (hh : s.hostPort = []) (ht : s.tickPort = w :: ws)
    (pick : Port) : takeWord pick s = some (.tick, w, { s with tickPort := ws }) := by
  simp only [takeWord, hh, ht]

theorem takeWord_host_of_both {s : State} {w : Word} {ws : List Word} (hh : s.hostPort = w :: ws) (ht : s.tickPort ≠ []) :
    takeWord .host s = some (.host, w, { s with hostPort := ws, turn := s.turn + 1 }) := by
  obtain ⟨t, ts, ht⟩ := List.exists_cons_of_ne_nil ht
  simp only [takeWord, hh, ht]

theorem takeWord_tick_of_both {s : State} {w : Word} {ws : List Word} (hh : s.hostPort ≠ []) (ht : s.tickPort = w :: ws) :
    takeWord .tick s = some (.tick, w, { s with tickPort := ws, turn := s.turn + 1 }) := by
  obtain ⟨h, hs, hh⟩ := List.exists_cons_of_ne_nil hh
  simp only [takeWord, hh, ht]

/-- A step takes no word only where none waits, and else the oldest of one port, leaving the other port as it is. -/
theorem takeWord_cases (pick : Port) (s : State) :
    (takeWord pick s = none ∧ s.hostPort = [] ∧ s.tickPort = []) ∨
    (∃ w ws k, takeWord pick s = some (.host, w, { s with hostPort := ws, turn := k }) ∧ s.hostPort = w :: ws) ∨
    (∃ w ws k, takeWord pick s = some (.tick, w, { s with tickPort := ws, turn := k }) ∧ s.tickPort = w :: ws) := by
  rcases eq_or_ne s.hostPort [] with hh | hh <;> rcases eq_or_ne s.tickPort [] with ht | ht
  · exact .inl ⟨takeWord_none hh ht _, hh, ht⟩
  · obtain ⟨w, ws, ht⟩ := List.exists_cons_of_ne_nil ht
    exact .inr (.inr ⟨w, ws, _, takeWord_tickOnly hh ht _, ht⟩)
  · obtain ⟨w, ws, hh⟩ := List.exists_cons_of_ne_nil hh
    exact .inr (.inl ⟨w, ws, _, takeWord_hostOnly hh ht _, hh⟩)
  · obtain ⟨h, hs, hh'⟩ := List.exists_cons_of_ne_nil hh
    obtain ⟨t, ts, ht'⟩ := List.exists_cons_of_ne_nil ht
    cases pick with
    | host => exact .inr (.inl ⟨h, hs, _, takeWord_host_of_both hh' ht, hh'⟩)
    | tick => exact .inr (.inr ⟨t, ts, _, takeWord_tick_of_both hh ht', ht'⟩)

/-! ### One step -/

theorem stepWith_of_none {pick : Port} {s : State} (hr : s.resetPin = false) (h : takeWord pick s = none) :
    stepWith pick s = .next s := by
  simp [stepWith, hr, h]

theorem stepWith_of_some {pick p : Port} {w : Word} {s u : State} (hr : s.resetPin = false)
    (h : takeWord pick s = some (p, w, u)) : stepWith pick s = perform p w u := by
  simp [stepWith, hr, h]

/-- A step under either choice, from every state, answers a next state (93_implementation_defined.md section B). -/
theorem exists_stepWith (pick : Port) (s : State) : ∃ t, stepWith pick s = .next t := by
  have hperform : ∀ p w u, ∃ t, perform p w u = .next t := fun p w u =>
    have ⟨_, _, _, h, _⟩ := perform_answers p w u
    ⟨_, h⟩
  cases hr : s.resetPin with
  | true => exact ⟨_, stepWith_of_resetPin hr pick⟩
  | false =>
    rcases takeWord_cases pick s with ⟨h, -⟩ | ⟨w, ws, k, h, -⟩ | ⟨w, ws, k, h, -⟩
    · exact ⟨s, stepWith_of_none hr h⟩
    · rw [stepWith_of_some hr h]; exact hperform ..
    · rw [stepWith_of_some hr h]; exact hperform ..

/-! ### Properties that everything the block can do keeps -/

/-- A property of the state that depends on none of the model's own fields and is kept by every command and by reset. -/
structure Kept (P : State → Prop) : Prop where
  own : ∀ {s : State} (hostPort tickPort : List Word) (resetPin : Bool) (responses : List Response) (turn : Nat),
    P s → P { s with hostPort, tickPort, resetPin, responses, turn }
  effect : ∀ {s : State} (i : Instr), P s → P (effect i s)
  reset : ∀ {s : State}, P s → P (applyReset s)

theorem Kept.answered {P : State → Prop} (k : Kept P) {s : State} (p : Port) (r : Word) (h : P s) :
    P (answered p r s) := k.own _ _ _ _ _ h

theorem Kept.exec {P : State → Prop} (k : Kept P) {i : Instr} {s t : State} (h : P s) (he : exec i s = .next t) :
    P t := by
  obtain ⟨r, rfl⟩ := exec_next he
  exact k.answered _ _ (k.effect i h)

theorem Kept.perform {P : State → Prop} (k : Kept P) {p : Port} {w : Word} {s t : State} (h : P s)
    (hp : perform p w s = .next t) : P t := by
  cases hd : decode w p with
  | error st =>
    rw [perform_of_error hd, Host.Outcome.next.injEq] at hp
    exact hp ▸ k.answered _ _ h
  | ok i => exact k.exec h ((perform_of_ok hd s).symm.trans hp)

theorem Kept.stepWith {P : State → Prop} (k : Kept P) {pick : Port} {s t : State} (h : P s)
    (hs : stepWith pick s = .next t) : P t := by
  rcases stepWith_cases hs with ⟨-, rfl⟩ | ⟨-, -, rfl⟩ | ⟨-, p, w, u, -, hp, hu⟩
  · exact k.reset h
  · exact h
  · refine k.perform ?_ hp
    rw [hu]
    exact k.own _ _ _ _ _ h

/-- What holds right after reset and is kept holds of every state the block can be in. -/
theorem Kept.reachable {P : State → Prop} (k : Kept P) {c : Config} (h0 : P (State.resetOf c)) {s : State}
    (h : Reachable c s) : P s := by
  induction h with
  | reset => exact h0
  | send p w _ ih => cases p <;> exact k.own _ _ _ _ _ ih
  | assertReset _ ih => exact k.own _ _ _ _ _ ih
  | step pick _ hs ih => exact k.stepWith ih hs

/-- No step changes the configuration (00_scope.md R7, 70_reset_and_hazards.md R253). -/
theorem kept_cfg (c : Config) : Kept (fun s => s.cfg = c) where
  own _ _ _ _ _ h := h
  effect i h := (effect_cfg i _).trans h
  reset h := h

/-! ### The statements -/

/-- Settles O10, by which word the step takes in each case; `step` takes the free choice for one of the two ports. -/
theorem stepRunsTheDecodedCommand : Obligations.StepRunsTheDecodedCommand := by
  intro s i w ws hr
  refine ⟨fun hh ht hd => ?_, fun hh ht hd => ?_, fun hh ht hd => ?_, fun hh ht hd => ?_, ?_⟩
  · rw [step, stepWith_of_some hr (takeWord_hostOnly hh ht _), perform_of_ok hd]
  · rw [step, stepWith_of_some hr (takeWord_tickOnly hh ht _), perform_of_ok hd]
  · rw [stepWith_of_some hr (takeWord_host_of_both hh ht), perform_of_ok hd]
  · rw [stepWith_of_some hr (takeWord_tick_of_both hh ht), perform_of_ok hd]
  · rw [step]
    cases Config.arbiter s.turn
    · exact .inl rfl
    · exact .inr rfl

/-- Settles O11: the placed word waits alone at the port of its instruction. -/
theorem placedWordIsPerformedNext : Obligations.PlacedWordIsPerformedNext := by
  intro s nbits w i h
  have hd : decode (tableWord nbits w) (tablePort (tableWord nbits w)) = .ok i := by
    unfold decodeTableWord at h
    split at h <;> cases h
    assumption
  obtain ⟨-, hport, -⟩ := decode_ok hd
  rw [State.withFetchWord, placeWord, step]
  rw [hport] at hd ⊢
  cases hp : i.port <;> rw [hp] at hd
  · exact (stepWith_of_some rfl (takeWord_hostOnly rfl rfl _)).trans (perform_of_ok hd _)
  · exact (stepWith_of_some rfl (takeWord_tickOnly rfl rfl _)).trans (perform_of_ok hd _)

/-- Settles O12: a step takes the oldest word of one port or none, and performing it leaves the waiting words alone. -/
theorem portOrderIsKeptAndInterleavingIsOpen : Obligations.PortOrderIsKeptAndInterleavingIsOpen := by
  refine ⟨fun pick s t hr h => ?_, fun s h t hs ts hr hh ht => ⟨?_, ?_⟩, fun s w => ⟨rfl, rfl⟩⟩
  · rcases takeWord_cases pick s with ⟨htake, hh, ht⟩ | ⟨w, ws, k, htake, hh⟩ | ⟨w, ws, k, htake, ht⟩
    · rw [stepWith_of_none hr htake, Host.Outcome.next.injEq] at h
      exact .inl ⟨hh, ht, h.symm⟩
    · rw [stepWith_of_some hr htake] at h
      obtain ⟨-, hhost, htick, -⟩ := perform_keeps h
      exact .inr (.inl ⟨w, k, by rw [hh, hhost], htick, by rw [hhost]; exact h⟩)
    · rw [stepWith_of_some hr htake] at h
      obtain ⟨-, hhost, htick, -⟩ := perform_keeps h
      exact .inr (.inr ⟨w, k, by rw [ht, htick], hhost, by rw [htick]; exact h⟩)
  · exact stepWith_of_some hr (takeWord_host_of_both hh (by simp [ht]))
  · exact stepWith_of_some hr (takeWord_tick_of_both (by simp [hh]) ht)

/-- Settles O13: `step` is a step under one of the choices. -/
theorem everyStepAnswersANextState : Obligations.EveryStepAnswersANextState :=
  fun s => exists_stepWith _ s

/-- Settles O14: there is no word to take. -/
theorem idleBlockKeepsItsState : Obligations.IdleBlockKeepsItsState :=
  fun _ hr hh ht => stepWith_of_none hr (takeWord_none hh ht _)

/-- Settles O15: the step is the reset, and the empty buffer reads blank. -/
theorem resetInputSetsEveryElement : Obligations.ResetInputSetsEveryElement :=
  fun _ hr => ⟨step_of_resetPin hr, Memory.read_nil⟩

/-- Settles O17, element by element of `State.resetOf`. -/
theorem machineAfterResetHasResetValues : Obligations.MachineAfterResetHasResetValues := by
  have hmin : (0x8000#16).toInt = -32768 := by decide
  exact ⟨fun _ => ⟨rfl, Memory.read_nil, rfl, rfl, rfl, rfl, rfl, rfl, hmin, hmin, rfl⟩, rfl⟩

/-- Settles O18: every step keeps the configuration it starts with. -/
theorem configurationNeverChanges : Obligations.ConfigurationNeverChanges :=
  fun _ s _ h => (kept_cfg s.cfg).stepWith rfl h

/-- Settles O36: the events are those the command emits. -/
theorem onlyTickAndHevalEmitEvents : Obligations.OnlyTickAndHevalEmitEvents := by
  intro i s
  obtain ⟨r, hr⟩ := exec_effect i s
  refine ⟨_, emitted i s, hr, effect_trace i s, ?_⟩
  cases i <;> rfl

/-- Settles O37: each clause is the contrapositive of what the other commands leave unchanged. -/
theorem onlyTheNamedCommandsWriteEachElement : Obligations.OnlyTheNamedCommandsWriteEachElement := by
  intro i s t h
  obtain ⟨r, rfl⟩ := exec_next h
  refine ⟨fun hne => ?tick, fun hne => ?buf, fun hne => ?mbox, fun hne => ?relay, fun hne => ?tlow, fun hne => ?thigh⟩
  all_goals by_contra hc
  case tick =>
    rw [← isTick_iff, Bool.not_eq_true] at hc
    obtain ⟨hidx, hen, hseg, hph, hbtn⟩ := effect_of_not_tick hc s
    simp [hidx, hen, hseg, hph, hbtn] at hne
  case buf =>
    push Not at hc
    exact hne (effect_buf hc.1 hc.2 s)
  case mbox =>
    rw [← isTick_iff, not_or, Bool.not_eq_true] at hc
    exact hne (effect_mbox hc.1 hc.2 s)
  all_goals push Not at hc
  case relay => exact hne (effect_relay hc s)
  case tlow => exact hne (effect_tlow hc s)
  case thigh => exact hne (effect_thigh hc s)

end Sys2Proof.Machine
end

section
/-! SUPPORT. The invariant of the block (10_state.md R22 to R25, R36; 41_display_multiplexer.md R124): reset has it, every command
keeps it, and so does everything the block can do. -/

namespace Sys2Proof.Machine

/-! ### At most one digit lit along a list of events -/

/-- At most one digit is lit at every point of a list of events, from the given lines on. -/
def LitFrom (l : Lines) (t : List OutEvent) : Prop :=
  ∀ u : List OutEvent, u <+: t → atMostOneLit (u.foldl Lines.after l).enable = true

theorem litOk_iff (s : State) : LitOk s ↔ LitFrom resetLines s.trace := Iff.rfl

theorem litFrom_nil {l : Lines} : LitFrom l [] ↔ atMostOneLit l.enable = true := by
  simp [LitFrom]

theorem litFrom_cons {l : Lines} {e : OutEvent} {t : List OutEvent} :
    LitFrom l (e :: t) ↔ atMostOneLit l.enable = true ∧ LitFrom (l.after e) t := by
  constructor
  · intro h
    exact ⟨h [] (List.nil_prefix), fun u hu => h (e :: u) (List.cons_prefix_cons.mpr ⟨rfl, hu⟩)⟩
  · rintro ⟨h0, h⟩ u hu
    cases u with
    | nil => exact h0
    | cons x u =>
      obtain ⟨rfl, hu'⟩ := List.cons_prefix_cons.mp hu
      exact h u hu'

theorem litFrom_append {l : Lines} {a b : List OutEvent} :
    LitFrom l (a ++ b) ↔ LitFrom l a ∧ LitFrom (a.foldl Lines.after l) b := by
  induction a generalizing l with
  | nil =>
    simp only [List.nil_append, litFrom_nil, List.foldl_nil, iff_and_self]
    exact fun h => h [] List.nil_prefix
  | cons e a ih => rw [List.cons_append, litFrom_cons, litFrom_cons, ih, and_assoc, List.foldl_cons]

/-- A serial frame lights no digit (41_display_multiplexer.md R122). -/
theorem litFrom_frame {l : Lines} (h : atMostOneLit l.enable = true) (b : Byte) : LitFrom l (frame b) :=
  fun _ hu => (foldl_frame_start_enable l b hu).symm ▸ h

/-! ### The lines after a command -/

/-- Lines that are dark, or of which only line i is lit, have at most one lit. -/
theorem atMostOneLit_of_lit {en : BitVec 16} {i : BitVec 4} (h : en = 0#16 ∨ en = 1#16 <<< i.toNat) :
    atMostOneLit en = true := by
  rcases h with rfl | rfl
  · exact atMostOneLit_dark
  · exact atMostOneLit_one i

/-- The lines after a command, from the lines before it: the events it emits, replayed. -/
theorem linesAfter_effect (i : Instr) (s : State) :
    linesAfter (effect i s).trace = (emitted i s).foldl Lines.after (linesAfter s.trace) := by
  rw [effect_trace, linesAfter_append]

/-- The events of a TICK replayed where the lines were dark or only the line of IDX was lit: the new digit alone is lit and its
byte is latched (41_display_multiplexer.md R121). -/
theorem foldl_emitted_tick {l : Lines} {s : State} (h : l.enable = 0#16 ∨ l.enable = 1#16 <<< s.idx.toNat) (btn a b : Bool) :
    (emitted (.tick btn a b) s).foldl Lines.after l =
      let i := nextIndex s.cfg s.idx
      let byte := Memory.read s.buf i.toNat
      { l with enable := 1#16 <<< i.toNat, shifted := byte, latched := byte } := by
  simp only [emitted, List.foldl_cons, List.foldl_append, List.foldl_nil, foldl_frame, Lines.after, lineOff_of_lit h,
    lineOn_dark]

/-- Over the events of a TICK at most one digit is lit at every point (41_display_multiplexer.md R124). -/
theorem litFrom_emitted_tick {l : Lines} {s : State} (h : l.enable = 0#16 ∨ l.enable = 1#16 <<< s.idx.toNat) (btn a b : Bool) :
    LitFrom l (emitted (.tick btn a b) s) := by
  have hdark : (l.after (.digitOff s.idx)).enable = 0#16 := lineOff_of_lit h
  have hframe : ∀ b, LitFrom (l.after (.digitOff s.idx)) (frame b) := litFrom_frame (by simp [hdark])
  simp only [emitted, litFrom_cons, litFrom_append, litFrom_nil, foldl_frame]
  refine ⟨atMostOneLit_of_lit h, hframe _, ?_, ?_⟩
  · simp [hdark]
  · simp [Lines.after, lineOff_of_lit h]

/-- The line a TICK leaves lit, where the lines were dark or only the line of IDX was lit (41_display_multiplexer.md R121). -/
theorem effect_tick_en {s : State} (h : EnableOk s) (btn a b : Bool) :
    (effect (.tick btn a b) s).en = 1#16 <<< (effect (.tick btn a b) s).idx.toNat := by
  simp only [effect, decTick_spec, muxTick_spec, lineOff_of_lit h, lineOn_dark]

/-! ### Each clause of the invariant is kept by every command -/

theorem effect_idx_lt {s : State} (hc : s.cfg.wf) (h : s.idx.toNat < s.cfg.n) (i : Instr) :
    (effect i s).idx.toNat < s.cfg.n := by
  cases ht : isTick i with
  | false => exact (effect_of_not_tick ht s).1 ▸ h
  | true =>
    obtain ⟨btn, a, b, rfl⟩ := isTick_iff.mp ht
    simp only [effect, decTick_spec, muxTick_spec]
    exact (nextIndex_toNat hc s.idx).2

/-- A write to a digit of the block keeps the buffer canonical and within the digits. -/
theorem bufOk_writeDigit {s : State} {d : BitVec 4} (h : BufOk s) (hd : d.toNat < s.cfg.n) (b : Byte) :
    BufOk (writeDigit d b s) := by
  obtain ⟨hwf, hin⟩ := h
  refine ⟨Memory.write_wf _ _ hwf, fun x hx => ?_⟩
  rcases Memory.mem_write hx with rfl | hx
  · exact hd
  · exact hin x hx

/-- The physical index of a position of the block is a digit of the block (40_segment_encoder.md R108, R110). -/
theorem phys_lt {c : Config} {p : BitVec 4} (hn : c.n ≤ 16) (hp : p.toNat < c.n) : (phys c p).toNat < c.n := by
  rw [phys_toNat hn hp]
  split <;> omega

theorem effect_bufOk {s : State} (hc : s.cfg.wf) (h : BufOk s) (i : Instr) : BufOk (effect i s) := by
  cases i with
  | wrdig sel byte =>
    simp only [effect, inRange, decide_eq_true_eq]
    split
    · next hsel => exact bufOk_writeDigit h hsel byte
    · exact h
  | wrchr sel e dp code =>
    simp only [effect, inRange, decide_eq_true_eq]
    split
    · next hsel => exact bufOk_writeDigit h (phys_lt hc.2.1 hsel) _
    · exact h
  | _ => exact h

theorem effect_enableOk {s : State} (h : EnableOk s) (i : Instr) : EnableOk (effect i s) := by
  cases ht : isTick i with
  | false =>
    obtain ⟨hidx, hen, -⟩ := effect_of_not_tick ht s
    rw [EnableOk, hidx, hen]
    exact h
  | true =>
    obtain ⟨btn, a, b, rfl⟩ := isTick_iff.mp ht
    exact .inr (effect_tick_en h btn a b)

theorem effect_traceOk {s : State} (he : EnableOk s) (h : TraceOk s) (i : Instr) : TraceOk (effect i s) := by
  obtain ⟨hen, hseg, hrelay⟩ := h
  rw [TraceOk, linesAfter_effect]
  cases i with
  | tick btn a b =>
    rw [foldl_emitted_tick (hen ▸ he), effect_tick_en he]
    exact ⟨rfl, rfl, hrelay⟩
  | heval fault v => exact ⟨hen, hseg, rfl⟩
  | wrdig | wrchr => simp only [effect, writeDigit_if]; exact ⟨hen, hseg, hrelay⟩
  | _ => exact ⟨hen, hseg, hrelay⟩

theorem effect_litOk {s : State} (he : EnableOk s) (ht : TraceOk s) (h : LitOk s) (i : Instr) : LitOk (effect i s) := by
  have hen : (linesAfter s.trace).enable = 0#16 ∨ (linesAfter s.trace).enable = 1#16 <<< s.idx.toNat := ht.1 ▸ he
  have hlit := atMostOneLit_of_lit hen
  rw [litOk_iff, effect_trace, litFrom_append]
  refine ⟨h, ?_⟩
  change LitFrom (linesAfter s.trace) _
  cases i with
  | tick btn a b => exact litFrom_emitted_tick hen btn a b
  | heval fault v => simpa [emitted, litFrom_cons, litFrom_nil, Lines.after] using hlit
  | _ => exact litFrom_nil.mpr hlit

/-! ### The invariant -/

/-- The invariant is one of the properties that everything the block can do keeps. -/
theorem kept_inv : Kept Inv where
  own _ _ _ _ _ h := ⟨h.cfg, h.idx, h.buf, h.enable, h.trace, h.lit⟩
  effect {s} i h :=
    { cfg := (effect_cfg i s).symm ▸ h.cfg
      idx := (effect_cfg i s).symm ▸ effect_idx_lt h.cfg h.idx i
      buf := effect_bufOk h.cfg h.buf i
      enable := effect_enableOk h.enable i
      trace := effect_traceOk h.enable h.trace i
      lit := effect_litOk h.enable h.trace h.lit i }
  reset {s} h :=
    { cfg := h.cfg
      idx := (resetIndex_toNat h.cfg).2
      buf := ⟨Memory.nil_wf, fun _ hx => absurd hx List.not_mem_nil⟩
      enable := .inl rfl
      trace := by
        rw [TraceOk, applyReset_trace, linesAfter_append]
        exact ⟨rfl, rfl, rfl⟩
      lit := by
        rw [litOk_iff, applyReset_trace, litFrom_append, litFrom_cons, litFrom_nil]
        have hlit := h.lit s.trace List.prefix_rfl
        exact ⟨h.lit, hlit, atMostOneLit_dark⟩ }

/-- The state right after reset of a legal configuration has the invariant. -/
theorem inv_resetOf {c : Config} (h : c.wf) : Inv (State.resetOf c) where
  cfg := h
  idx := (resetIndex_toNat h).2
  buf := ⟨Memory.nil_wf, fun _ hx => absurd hx List.not_mem_nil⟩
  enable := .inl rfl
  trace := ⟨rfl, rfl, rfl⟩
  lit := (litFrom_cons (e := .reset)).mpr ⟨atMostOneLit_dark, litFrom_nil.mpr atMostOneLit_dark⟩

/-- The configuration of `State.reset` is legal, whatever its free parameters are. -/
theorem referenceConfig_wf : referenceConfig.wf := by
  refine ⟨by decide, by decide, by decide, by decide, by decide, rfl, ?letters⟩
  case letters => simp [referenceConfig]

/-! ### The statements -/

/-- Settles O54: every step, under either choice, keeps what every command and reset keep. -/
theorem everyStepKeepsTheInvariant : Obligations.EveryStepKeepsTheInvariant :=
  fun _ _ h => ⟨fun hs => kept_inv.stepWith h hs, fun _ hs => kept_inv.stepWith h hs⟩

/-- Settles O55: `State.reset` is the reset state of a legal configuration. -/
theorem resetStateHasTheInvariant : Obligations.ResetStateHasTheInvariant :=
  ⟨fun _ h => inv_resetOf h, inv_resetOf referenceConfig_wf⟩

/-- Settles O56: the invariant and the configuration hold at reset and are kept. -/
theorem reachableStatesHaveTheInvariant : Obligations.ReachableStatesHaveTheInvariant :=
  fun c _ hc h => ⟨kept_inv.reachable (inv_resetOf hc) h, (kept_cfg c).reachable rfl h⟩

end Sys2Proof.Machine
end

section
/-! SUPPORT. Runs of commands and the stride of the digit sequencer (41_display_multiplexer.md R120, R125, R126, R131): one
induction over the commands of a run, the arithmetic of the stride, what k TICKs leave, and the statements that follow. -/

namespace Sys2Proof.Machine

/-! ### Runs of commands -/

theorem execAll_cons {i : Instr} {s t : State} (h : exec i s = .next t) (is : List Instr) :
    execAll (i :: is) s = execAll is t := by
  rw [execAll, h]

theorem execAll_append {is : List Instr} {s t : State} (h : execAll is s = .next t) (js : List Instr) :
    execAll (is ++ js) s = execAll js t := by
  induction is generalizing s with
  | nil => cases h; rfl
  | cons i is ih =>
    obtain ⟨r, hi⟩ := exec_effect i s
    rw [execAll_cons hi] at h
    rw [List.cons_append, execAll_cons hi, ih h]

/-- Every run answers a next state, and what holds at its start and is kept as each command is performed holds at its end.
The property may speak of the commands performed so far. -/
theorem execAll_induction {P : List Instr → State → Prop} {s : State} (start : P [] s)
    (next : ∀ done i u r, P done u → P (done ++ [i]) (answered i.port r (effect i u))) (is : List Instr) :
    ∃ t, execAll is s = .next t ∧ P is t := by
  induction is using List.reverseRecOn with
  | nil => exact ⟨s, rfl, start⟩
  | append_singleton is i ih =>
    obtain ⟨u, hu, hP⟩ := ih
    obtain ⟨r, hr⟩ := exec_effect i u
    refine ⟨_, ?_, next is i u r hP⟩
    rw [execAll_append hu, execAll_cons hr, execAll]

/-! ### The stride modulo N -/

/-- Adding a multiple of the stride to an index taken modulo N. -/
theorem stride_add_mod (i step n k : Nat) : ((i + k * step) % n + step) % n = (i + (k + 1) * step) % n := by
  rw [Nat.mod_add_mod, Nat.succ_mul, Nat.add_assoc]

/-- N strides are enough to reach every index that some number of strides reaches: those congruent to the first modulo
gcd(STEP, N). -/
theorem exists_stride_iff {i step n d : Nat} (hd : d < n) :
    (∃ j, j < n ∧ (i + (j + 1) * step) % n = d) ↔ d % Nat.gcd step n = i % Nat.gcd step n := by
  constructor
  · rintro ⟨j, -, rfl⟩
    rw [Nat.mod_mod_of_dvd _ (Nat.gcd_dvd_right step n), Nat.add_mod,
      Nat.mod_eq_zero_of_dvd ((Nat.gcd_dvd_left step n).mul_left _), Nat.add_zero, Nat.mod_mod]
  · intro h
    have hn : (0 : Int) < n := by omega
    obtain ⟨q, hq⟩ := Nat.modEq_iff_dvd.mp h.symm
    obtain ⟨x, y, hxy⟩ : ∃ x y : Int, (d : Int) - i = step * x + n * y :=
      ⟨Nat.gcdA step n * q, Nat.gcdB step n * q, by rw [hq, Nat.gcd_eq_gcd_ab]; ring⟩
    have hj0 : 0 ≤ (x - 1) % n := Int.emod_nonneg _ hn.ne'
    have hjn : (x - 1) % n < n := Int.emod_lt_of_pos _ hn
    refine ⟨((x - 1) % n).toNat, by omega, ?_⟩
    have hcong : (i + (((x - 1) % n).toNat + 1) * step : Int) ≡ d [ZMOD n] := by
      rw [Int.toNat_of_nonneg hj0]
      calc (i + ((x - 1) % n + 1) * step : Int) ≡ i + ((x - 1) + 1) * step [ZMOD n] := by
            gcongr; exact Int.mod_modEq _ _
        _ = d - n * y := by linarith
        _ ≡ d [ZMOD n] := (Int.modEq_iff_dvd.mpr ⟨y, by ring⟩)
    have hnat : i + (((x - 1) % n).toNat + 1) * step ≡ d [MOD n] := by
      rw [← Int.natCast_modEq_iff]; exact_mod_cast hcong
    exact Eq.trans hnat (Nat.mod_eq_of_lt hd)

/-- Where the stride has no factor in common with N, N strides reach every index. -/
theorem exists_stride_of_coprime {step n d : Nat} (hg : Nat.gcd step n = 1) (i : Nat) (hd : d < n) :
    ∃ j, j < n ∧ (i + (j + 1) * step) % n = d :=
  (exists_stride_iff hd).mpr (by rw [hg, Nat.mod_one, Nat.mod_one])

/-- Where the stride has no factor in common with N, two of N strides that reach the same index are the same. -/
theorem stride_inj {i step n j k : Nat} (hg : Nat.gcd step n = 1) (hj : j < n) (hk : k < n)
    (h : (i + (j + 1) * step) % n = (i + (k + 1) * step) % n) : j = k := by
  have hmul : (j + 1) * step ≡ (k + 1) * step [MOD n] := Nat.ModEq.add_left_cancel' i h
  have hjk : j + 1 ≡ k + 1 [MOD n] := Nat.ModEq.cancel_right_of_coprime (by rwa [Nat.gcd_comm]) hmul
  exact (Nat.ModEq.add_right_cancel' 1 hjk).eq_of_lt_of_lt hj hk

/-- Where the stride has no factor in common with N, the N-th of N strides returns to the first index, and no other does. -/
theorem stride_returns_iff {i step n j : Nat} (hg : Nat.gcd step n = 1) (hi : i < n) (hj : j < n) :
    (i + (j + 1) * step) % n = i ↔ j + 1 = n := by
  have hlast : (i + (n - 1 + 1) * step) % n = i := by
    rw [Nat.sub_add_cancel (by omega), Nat.add_mul_mod_self_left, Nat.mod_eq_of_lt hi]
  constructor
  · intro h
    have := stride_inj hg hj (by omega) (h.trans hlast.symm)
    omega
  · intro h
    obtain rfl : j = n - 1 := by omega
    exact hlast

/-- From the reset value of IDX, k strides reach ((k - 1) * STEP) mod N (10_state.md R22). -/
theorem stride_from_reset {step n k : Nat} (hn : 0 < n) (hk : 0 < k) :
    ((n - step % n) % n + k * step) % n = (k - 1) * step % n := by
  obtain ⟨m, rfl⟩ : ∃ m, k = m + 1 := ⟨k - 1, by omega⟩
  have hle : step % n ≤ n := (Nat.mod_lt _ hn).le
  have hback : (n - step % n) + step ≡ 0 [MOD n] :=
    calc (n - step % n) + step ≡ (n - step % n) + step % n [MOD n] := (Nat.mod_modEq step n).symm.add_left _
      _ = n := Nat.sub_add_cancel hle
      _ ≡ 0 [MOD n] := by simp [Nat.ModEq]
  calc ((n - step % n) % n + (m + 1) * step) % n = (((n - step % n) + step) + m * step) % n := by
        rw [Nat.mod_add_mod]; congr 1; ring
    _ = (0 + m * step) % n := hback.add_right _
    _ = (m + 1 - 1) * step % n := by simp

/-! ### Runs with k TICKs -/

/-- What any run with k TICKs from s leaves of the index and the lines, if it leads to t (41_display_multiplexer.md R120,
R121). -/
structure Strode (s : State) (k : Nat) (t : State) : Prop where
  cfg : t.cfg = s.cfg
  idx : t.idx.toNat = (s.idx.toNat + k * s.cfg.step) % s.cfg.n
  enable : EnableOk s → EnableOk t
  start : k = 0 → t.en = s.en
  lit : 0 < k → EnableOk s → t.en = 1#16 <<< t.idx.toNat

theorem strode_zero {s : State} (h : s.idx.toNat < s.cfg.n) : Strode s 0 s where
  cfg := rfl
  idx := by rw [Nat.zero_mul, Nat.add_zero, Nat.mod_eq_of_lt h]
  enable := id
  start _ := rfl
  lit h := absurd h (Nat.lt_irrefl 0)

theorem strode_tick {s t : State} {k : Nat} (hc : s.cfg.wf) (h : Strode s k t) (btn a b : Bool) :
    Strode s (k + 1) (effect (.tick btn a b) t) where
  cfg := (effect_cfg _ t).trans h.cfg
  idx := by
    have hidx := (nextIndex_toNat (h.cfg.symm ▸ hc) t.idx).1
    simp only [effect, decTick_spec, muxTick_spec]
    rw [hidx, h.cfg, h.idx, stride_add_mod]
  enable he := effect_enableOk (h.enable he) _
  start h := absurd h (Nat.succ_ne_zero k)
  lit _ he := effect_tick_en (h.enable he) btn a b

theorem strode_of_not_tick {s t : State} {k : Nat} {i : Instr} (hi : isTick i = false) (h : Strode s k t) :
    Strode s k (effect i t) := by
  obtain ⟨hidx, hen, -⟩ := effect_of_not_tick hi t
  exact ⟨(effect_cfg i t).trans h.cfg, hidx.symm ▸ h.idx, fun he => effect_enableOk (h.enable he) i,
    fun hk => hen.trans (h.start hk), fun hk he => by rw [hen, hidx]; exact h.lit hk he⟩

theorem Strode.answered {s t : State} {k : Nat} (h : Strode s k t) (p : Port) (r : Word) : Strode s k (answered p r t) :=
  ⟨h.cfg, h.idx, h.enable, h.start, h.lit⟩

/-- Any run of commands, by the number of its TICKs. -/
theorem execAll_strode {s : State} (hc : s.cfg.wf) (hi : s.idx.toNat < s.cfg.n) (is : List Instr) :
    ∃ t, execAll is s = .next t ∧ Strode s (is.countP isTick) t := by
  refine execAll_induction (P := fun done t => Strode s (done.countP isTick) t) (strode_zero hi) (fun done i u r h => ?_) is
  apply Strode.answered
  rw [List.countP_append, List.countP_singleton]
  cases ht : isTick i with
  | false => exact strode_of_not_tick ht h
  | true =>
    obtain ⟨btn, a, b, rfl⟩ := isTick_iff.mp ht
    exact strode_tick hc h btn a b

/-! ### Runs of TICKs only -/

/-- What k TICKs from s leave, if they lead to t: the buffer, and in the segments the byte of the digit lit last
(41_display_multiplexer.md R121). -/
structure Ticked (s : State) (k : Nat) (t : State) : Prop extends Strode s k t where
  buf : t.buf = s.buf
  segout : t.segout = if k = 0 then s.segout else Memory.read s.buf t.idx.toNat

theorem ticked_succ {s t : State} {k : Nat} (hc : s.cfg.wf) (h : Ticked s k t) (btn a b : Bool) :
    Ticked s (k + 1) (effect (.tick btn a b) t) where
  toStrode := strode_tick hc h.toStrode btn a b
  buf := h.buf
  segout := by
    rw [if_neg (Nat.succ_ne_zero k), ← h.buf]
    rfl

/-- Any number of TICKs, whatever their pins. -/
theorem execAll_ticks {s : State} (hc : s.cfg.wf) (hi : s.idx.toNat < s.cfg.n) (ps : List Pins) :
    ∃ t, execAll (ps.map tickOf) s = .next t ∧ Ticked s ps.length t := by
  induction ps using List.reverseRecOn with
  | nil => exact ⟨s, rfl, strode_zero hi, rfl, rfl⟩
  | append_singleton ps p ih =>
    obtain ⟨u, hu, hT⟩ := ih
    obtain ⟨r, hr⟩ := exec_effect (tickOf p) u
    refine ⟨_, by rw [List.map_append, execAll_append hu, List.map_singleton, execAll_cons hr, execAll], ?_⟩
    obtain ⟨hstrode, hbuf, hseg⟩ := ticked_succ hc hT p.btn p.a p.b
    rw [List.length_append, List.length_singleton]
    exact ⟨hstrode.answered _ r, hbuf, hseg⟩

theorem ticked_of_execAll {s t : State} (hc : s.cfg.wf) (hi : s.idx.toNat < s.cfg.n) {ps : List Pins} {j : Nat}
    (hj : j < ps.length) (h : execAll ((ps.take (j + 1)).map tickOf) s = .next t) : Ticked s (j + 1) t := by
  obtain ⟨u, hu, hT⟩ := execAll_ticks hc hi (ps.take (j + 1))
  rw [List.length_take, Nat.min_eq_left hj] at hT
  rw [h, Host.Outcome.next.injEq] at hu
  exact hu ▸ hT

/-- A claim about the state that the first j + 1 of some TICKs lead to is a claim about a state that j + 1 TICKs leave. -/
theorem execAll_ticks_iff {s : State} (hc : s.cfg.wf) (hi : s.idx.toNat < s.cfg.n) {ps : List Pins} {j : Nat}
    (hj : j < ps.length) {Q : State → Prop} {q : Prop} (h : ∀ t, Ticked s (j + 1) t → (Q t ↔ q)) :
    (∃ t, execAll ((ps.take (j + 1)).map tickOf) s = .next t ∧ Q t) ↔ q := by
  constructor
  · rintro ⟨t, ht, hQ⟩
    exact (h t (ticked_of_execAll hc hi hj ht)).mp hQ
  · intro hq
    obtain ⟨t, ht, -⟩ := execAll_ticks hc hi (ps.take (j + 1))
    exact ⟨t, ht, (h t (ticked_of_execAll hc hi hj ht)).mpr hq⟩

/-- Of the lines with only line i lit, exactly line i is lit. -/
theorem lit_getLsbD (i : BitVec 4) {d : Nat} (hd : d < 16) : (1#16 <<< i.toNat).getLsbD d = decide (i.toNat = d) := by
  revert i
  interval_cases d <;> decide

/-- The index a TICK left is the one whose line it lit, alone. -/
theorem ticked_idx_iff {s t : State} {k d : Nat} (he : EnableOk s) (h : Ticked s (k + 1) t) :
    t.idx.toNat = d ∧ t.en = 1#16 <<< d ↔ (s.idx.toNat + (k + 1) * s.cfg.step) % s.cfg.n = d := by
  rw [← h.idx]
  constructor
  · exact And.left
  · rintro rfl
    exact ⟨rfl, h.lit (Nat.succ_pos k) he⟩

/-- A line is lit after a TICK exactly where the TICK left the index there. -/
theorem ticked_lit_iff {s t : State} {k d : Nat} (he : EnableOk s) (h : Ticked s (k + 1) t) (hd : d < 16) :
    t.en.getLsbD d = true ↔ (s.idx.toNat + (k + 1) * s.cfg.step) % s.cfg.n = d := by
  rw [h.lit (Nat.succ_pos k) he, lit_getLsbD t.idx hd, decide_eq_true_eq, h.idx]

/-- The index a TICK left, as a digit. -/
theorem ticked_idx_eq_iff {s t : State} {k : Nat} {d : BitVec 4} (h : Ticked s k t) :
    t.idx = d ↔ (s.idx.toNat + k * s.cfg.step) % s.cfg.n = d.toNat := by
  rw [← h.idx, BitVec.toNat_inj]

/-- After a write of one digit a TICK shows the byte written where it selects that digit, and the old byte of the digit it
selects elsewhere (41_display_multiplexer.md R131). -/
theorem ticked_segout_of_write {s u t : State} {k : Nat} {d : BitVec 4} {byte : Byte}
    (hu : u.buf = Memory.write s.buf d.toNat byte) (h : Ticked u (k + 1) t) :
    t.segout = if t.idx = d then byte else Memory.read s.buf t.idx.toNat := by
  rw [h.segout, if_neg (Nat.succ_ne_zero k), hu]
  split
  · next hd => rw [hd, Memory.read_write_same]
  · next hd => exact Memory.read_write_other _ (fun h => hd (BitVec.eq_of_toNat_eq h))

/-! ### The statements -/

/-- Settles O38: along any commands the index is the reset value and one stride per TICK, dark before the first TICK. -/
theorem ticksVisitDigitsInStrideOrder : Obligations.TicksVisitDigitsInStrideOrder := by
  intro c is hc
  obtain ⟨hidx, hlt⟩ := resetIndex_toNat hc
  obtain ⟨t, ht, hS⟩ := execAll_strode (s := State.resetOf c) hc hlt is
  refine ⟨t, ht, hS.start, fun hpos => ⟨?_, hS.lit hpos (.inl rfl)⟩⟩
  calc t.idx.toNat = ((c.n - c.step % c.n) % c.n + is.countP isTick * c.step) % c.n := by rw [← hidx]; exact hS.idx
    _ = (is.countP isTick - 1) * c.step % c.n := stride_from_reset hc.1 hpos

/-- Settles O39: the strides of N TICKs reach every digit, each at one TICK. -/
theorem coprimeStrideLightsEveryDigitOnce : Obligations.CoprimeStrideLightsEveryDigitOnce := by
  intro s ps hc hi he hg hlen d hd
  have hvisit : ∀ j, j < s.cfg.n → ((∃ t, execAll ((ps.take (j + 1)).map tickOf) s = .next t ∧ t.idx.toNat = d ∧
      t.en = 1#16 <<< d) ↔ (s.idx.toNat + (j + 1) * s.cfg.step) % s.cfg.n = d) :=
    fun j hj => execAll_ticks_iff hc hi (by omega) (fun t hT => ticked_idx_iff he hT)
  obtain ⟨j, hj, hjd⟩ := exists_stride_of_coprime hg s.idx.toNat hd
  refine ⟨j, ⟨hj, (hvisit j hj).mpr hjd⟩, ?_⟩
  rintro k ⟨hk, hkd⟩
  exact stride_inj hg hk hj (((hvisit k hk).mp hkd).trans hjd.symm)

/-- Settles O40: both ways of saying that a TICK lights digit d say that its strides reach d. -/
theorem strideLightsExactlyTheCongruentDigits : Obligations.StrideLightsExactlyTheCongruentDigits := by
  intro s ps hc hi he hlen d hd
  rw [← exists_stride_iff hd]
  have hd16 : d < 16 := lt_of_lt_of_le hd hc.2.1
  constructor <;> refine exists_congr fun j => and_congr_right fun hj => execAll_ticks_iff hc hi (by omega) fun t hT => ?_
  · exact ticked_lit_iff he hT hd16
  · exact ticked_idx_iff he hT

/-- Settles O41: the TICKs run from the state WRDIG leaves, whose buffer reads the byte at the written digit and the old bytes
elsewhere. -/
theorem writtenDigitIsShownWhenSelected : Obligations.WrittenDigitIsShownWhenSelected := by
  intro s sel byte ps hc hi hsel
  have hwrite := exec_wrdig byte hsel
  generalize hu : answered .host 0x00000000#32 { s with buf := Memory.write s.buf sel.toNat byte } = u at hwrite
  have hcfg : u.cfg = s.cfg := by rw [← hu]; rfl
  have hidx : u.idx = s.idx := by rw [← hu]; rfl
  have hbuf : u.buf = Memory.write s.buf sel.toNat byte := by rw [← hu]; rfl
  have hseg : u.segout = s.segout := by rw [← hu]; rfl
  have hcu : u.cfg.wf := hcfg.symm ▸ hc
  have hiu : u.idx.toNat < u.cfg.n := by rw [hidx, hcfg]; exact hi
  simp only [execAll_cons hwrite]
  refine ⟨?shown, fun hg hlen => ⟨?within, fun hlit j t hj ht => ?lit⟩⟩
  case shown =>
    obtain ⟨t, ht, hT⟩ := execAll_ticks hcu hiu ps
    refine ⟨t, ht, ?_, fun hne hd => ?_, fun hne hd => ?_⟩
    · rintro rfl
      rw [hT.segout, ← hseg]
      rfl
    all_goals
      rw [← Nat.succ_pred_eq_of_pos (List.length_pos_of_ne_nil hne)] at hT
      rw [ticked_segout_of_write hbuf hT]
    · exact if_pos hd
    · exact if_neg hd
  case within =>
    obtain ⟨j, hj, hjd⟩ := exists_stride_of_coprime hg u.idx.toNat hsel
    refine ⟨j, hj, (execAll_ticks_iff hcu hiu (by omega) fun t hT => ?_).mpr hjd⟩
    rw [ticked_segout_of_write hbuf hT, and_iff_left_of_imp fun h => if_pos h, ticked_idx_eq_iff hT, hcfg]
  case lit =>
    rw [ticked_idx_eq_iff (ticked_of_execAll hcu hiu (by omega) ht), hcfg, hidx, hlit]
    exact stride_returns_iff hg hi hj

end Sys2Proof.Machine
end

section
/-! SUPPORT. Inverted mounting and the encoded byte (40_segment_encoder.md R101, R106 to R110): where INV moves each bit, the
mirrored position, and the statements that follow. -/

namespace Sys2Proof.Machine

/-! ### INV -/

/-- Two half turns put every segment back (40_segment_encoder.md R107). -/
@[simp] theorem rot_rot (s : Segment) : rot (rot s) = s := by cases s <;> rfl

theorem mem_allSegments (s : Segment) : s ∈ allSegments := by cases s <;> decide

/-- INV moves the bit of a segment to the segment that a half turn puts in its place (40_segment_encoder.md R107). -/
theorem invertByte_pos {m : SegMap} (h : m.wf) (x : Byte) (s : Segment) :
    (invertByte m x).getLsbD (m.pos (rot s)) = x.getLsbD (m.pos s) := by
  obtain ⟨h1, h7⟩ := pos_range h (rot s)
  have hne : m.pos (rot s) ≠ 0 := Nat.ne_of_gt h1
  have hpoint : (x &&& 1#8).getLsbD (m.pos (rot s)) = false := by simp [BitVec.getLsbD_one, hne]
  have hrot : ∀ u, rot s = rot u ↔ s = u := fun u => ⟨fun e => by rw [← rot_rot s, e, rot_rot], congrArg rot⟩
  rw [invertByte_getLsbD h x (by omega), hpoint, Bool.false_or, Bool.eq_iff_iff]
  simp [pos_inj h, hrot, mem_allSegments]

/-- INV leaves the decimal point in its place (40_segment_encoder.md R107). -/
theorem invertByte_zero {m : SegMap} (h : m.wf) (x : Byte) : (invertByte m x).getLsbD 0 = x.getLsbD 0 := by
  have hseg : ∀ s, decide (0 = m.pos (rot s)) = false := fun s => decide_eq_false (by have := pos_range h (rot s); omega)
  rw [invertByte_getLsbD h x (by omega)]
  simp [hseg]

/-- INV applied twice is the identity (40_segment_encoder.md R107). -/
theorem invertByte_invertByte {m : SegMap} (h : m.wf) (x : Byte) : invertByte m (invertByte m x) = x := by
  apply byte_ext h
  · rw [invertByte_zero h, invertByte_zero h]
  · intro s
    obtain ⟨u, rfl⟩ : ∃ u, s = rot u := ⟨rot s, (rot_rot s).symm⟩
    rw [invertByte_pos h]
    conv_lhs => rw [← rot_rot u, invertByte_pos h]

theorem defaultSegMap_wf : defaultSegMap.wf := by decide

/-- INV under the default segment map as shifts (40_segment_encoder.md R107). -/
theorem invertByte_default (x : Byte) :
    invertByte defaultSegMap x = ((x >>> 3) &&& 0x1C#8) ||| ((x <<< 3) &&& 0xE0#8) ||| (x &&& 0x03#8) := by
  apply byte_ext defaultSegMap_wf
  · rw [invertByte_zero defaultSegMap_wf]
    simp
  · intro s
    rw [← rot_rot s, invertByte_pos defaultSegMap_wf]
    cases s <;> simp [defaultSegMap, SegMap.pos, rot]

/-! ### The encoded byte -/

/-- The bits of an encoded byte above the decimal point do not depend on it (40_segment_encoder.md R106). -/
theorem enc_above_point {c : Config} (h : c.segmap.wf) (code : Byte) (dp dp' e : Bool) {k : Nat} (h1 : 1 ≤ k) (h7 : k ≤ 7) :
    (enc c code dp e).getLsbD k = (enc c code dp' e).getLsbD k := by
  obtain ⟨s, rfl⟩ := pos_surj h h1 h7
  rw [enc_pos h, enc_pos h]

/-! ### The mirrored position -/

/-- The physical index where INVERT = 1 is the mirrored one (40_segment_encoder.md R108). -/
theorem phys_phys {c : Config} {p : BitVec 4} (hn : c.n ≤ 16) (hp : p.toNat < c.n) : phys c (phys c p) = p := by
  apply BitVec.eq_of_toNat_eq
  rw [phys_toNat hn (phys_lt hn hp), phys_toNat hn hp]
  split <;> omega

/-- What WRCHR leaves at the physical index of its position (40_segment_encoder.md R109). -/
theorem exec_wrchr_read {s : State} {sel : BitVec 4} (hn : s.cfg.n ≤ 16) (h : sel.toNat < s.cfg.n) (e dp : Bool)
    (code : Byte) : ∃ t, exec (.wrchr sel e dp code) s = .next t ∧
      Memory.read t.buf (if s.cfg.invert then s.cfg.n - 1 - sel.toNat else sel.toNat) =
        if s.cfg.invert then invertByte s.cfg.segmap (enc s.cfg code dp e) else enc s.cfg code dp e := by
  refine ⟨_, exec_wrchr e dp code h, ?_⟩
  rw [← phys_toNat hn h]
  exact Memory.read_write_same ..

/-! ### The statements -/

/-- Settles O29, by the decimal point and the segment bits of an encoded byte. -/
theorem encodedByteShowsSegmentsAndPoint : Obligations.EncodedByteShowsSegmentsAndPoint :=
  fun _ code dp e h => ⟨enc_zero h code dp e, enc_pos h code dp e⟩

/-- Settles O32: the bits above the decimal point are bits of segments. -/
theorem decimalPointIsIndependentOfTheGlyph : Obligations.DecimalPointIsIndependentOfTheGlyph := by
  intro c code dp e h
  refine ⟨enc_zero h code dp e, BitVec.eq_of_getLsbD_eq fun k hk => ?_⟩
  rw [BitVec.getLsbD_extractLsb', BitVec.getLsbD_extractLsb', enc_above_point h code dp (!dp) e (by omega) (by omega)]

/-- Settles O33: each pair of the list is a segment and the one a half turn puts in its place. -/
theorem inversionExchangesSegments : Obligations.InversionExchangesSegments := by
  refine ⟨fun m x h => ⟨fun q hq => ?_, invertByte_zero h x, invertByte_invertByte h x⟩, invertByte_default⟩
  have hrot : q.2 = rot q.1 := by
    simp only [List.mem_cons, List.not_mem_nil, or_false] at hq
    rcases hq with rfl | rfl | rfl | rfl | rfl | rfl | rfl <;> rfl
  rw [hrot]
  exact invertByte_pos h x q.1

/-- Settles O34, by the number of the physical index. -/
theorem invertedPositionIsSelfInverse : Obligations.InvertedPositionIsSelfInverse :=
  fun _ _ hn hp => ⟨phys_lt hn hp, phys_phys hn hp, phys_toNat hn hp⟩

/-- Settles O35: the two writes leave the encoded byte upright at p and inverted at the mirrored index. -/
theorem invertedWriteIsTheRotatedMirroredWrite : Obligations.InvertedWriteIsTheRotatedMirroredWrite := by
  intro s sel e dp code hn hsel
  obtain ⟨t, ht, hupright⟩ := exec_wrchr_read (s := { s with cfg := { s.cfg with invert := false } }) hn hsel e dp code
  obtain ⟨u, hu, hinverted⟩ := exec_wrchr_read (s := { s with cfg := { s.cfg with invert := true } }) hn hsel e dp code
  exact ⟨t, u, ht, hu, hinverted.trans (congrArg (invertByte s.cfg.segmap) hupright.symm)⟩

end Sys2Proof.Machine
end

section
/-! SUPPORT. What TICKs answer and what holds since the last reset (42_quadrature_decoder.md R151 to R163, 20_memory.md R59,
41_display_multiplexer.md R124): the event code in a TICK's response, the mailbox, detents from rest, and the part of the trace
after its last Reset. -/

namespace Sys2Proof.Machine

/-! ### Event codes -/

/-- The event code in the response word of a TICK (30_encoding.md R81). -/
theorem eventBits_tick (p : Port) (e : Event) (i : BitVec 4) :
    eventBits { port := p, word := 0#26 ++ eventCode e ++ i } = eventCode e := by
  apply BitVec.eq_of_getLsbD_eq
  intro k hk
  simp only [eventBits, BitVec.getLsbD_extractLsb', BitVec.getLsbD_append]
  rw [if_neg (by omega), if_pos (by omega)]
  simp [hk]

theorem evtPending_iff (s : State) : evtPending s = true ↔ s.mbox ≠ .none := by
  unfold evtPending
  cases s.mbox <;> decide

theorem evtPending_eq_false_iff (s : State) : evtPending s = false ↔ s.mbox = .none := by
  rw [← Bool.not_eq_true, evtPending_iff, not_not]

/-- What a TICK answers and samples, and what it leaves in the mailbox: the event it selects, if there is one
(42_quadrature_decoder.md R154 to R156). -/
theorem exec_tick_event (s : State) (btn a b : Bool) : ∃ (t : State) (r : Response),
    exec (.tick btn a b) s = .next t ∧ t.responses = s.responses ++ [r] ∧
      eventBits r = eventCode (tickEvent s btn a b) ∧
      t.mbox = (if tickEvent s btn a b = .none then s.mbox else tickEvent s btn a b) ∧
      t.lastph = phasePair a b ∧ t.lastbtn = btn :=
  ⟨_, _, exec_tick s btn a b, rfl, eventBits_tick _ _ _, rfl, rfl, rfl⟩

/-- With the button level steady the event of a TICK is its rotation (42_quadrature_decoder.md R151, R153). -/
theorem tickEvent_steady (s : State) (a b : Bool) :
    tickEvent s s.lastbtn a b = rotEvent s.lastph (phasePair a b) := by
  have hpress : pressEdge s.lastbtn s.lastbtn = false := by cases s.lastbtn <;> rfl
  rw [tickEvent, hpress, selectEvent_of_no_press]

/-- The event codes of a run of phase pairs with the button level steady, from the pair sampled last
(42_quadrature_decoder.md R152). -/
def rotationCodes : BitVec 2 → List (Bool × Bool) → List (BitVec 2)
  | _, [] => []
  | last, ab :: l => eventCode (rotEvent last (phasePair ab.1 ab.2)) :: rotationCodes (phasePair ab.1 ab.2) l

/-- TICKs with the button level steady answer the event codes of their rotations. -/
theorem execAll_steady_ticks (btn : Bool) (q : List (Bool × Bool)) : ∀ s : State, s.lastbtn = btn →
    ∃ (t : State) (rs : List Response), execAll (q.map (fun ab => .tick btn ab.1 ab.2)) s = .next t ∧
      t.responses = s.responses ++ rs ∧ rs.map eventBits = rotationCodes s.lastph q := by
  induction q with
  | nil => exact fun s _ => ⟨s, [], rfl, (List.append_nil _).symm, rfl⟩
  | cons ab q ih =>
    rintro s rfl
    obtain ⟨u, r, hu, hur, hbits, -, hph, hbtn⟩ := exec_tick_event s s.lastbtn ab.1 ab.2
    obtain ⟨t, rs, ht, htr, hcodes⟩ := ih u hbtn
    refine ⟨t, r :: rs, ?_, ?_, ?_⟩
    · rw [List.map_cons, execAll_cons hu, ht]
    · rw [htr, hur, List.append_assoc, List.singleton_append]
    · rw [List.map_cons, hbits, hcodes, hph, tickEvent_steady, rotationCodes]

/-! ### The part of the trace after its last Reset -/

/-- No event of a command is a Reset. -/
theorem reset_notMem_emitted (i : Instr) (s : State) : .reset ∉ emitted i s := by
  cases i <;> simp [emitted, frame]

/-- A command that is no TICK lights no digit. -/
theorem digitOn_notMem_emitted {i : Instr} (h : isTick i = false) (s : State) (d : BitVec 4) : .digitOn d ∉ emitted i s := by
  cases i with
  | tick => cases h
  | _ => simp [emitted]

/-- A command that is no TICK leaves an empty mailbox empty. -/
theorem effect_mbox_none {i : Instr} (hi : isTick i = false) {s : State} (h : s.mbox = .none) :
    (effect i s).mbox = .none := by
  by_cases hg : i = .getevt
  · rw [hg]; rfl
  · rw [effect_mbox hi hg, h]

/-- What the trace since its last Reset says of the state: once a digit was lit, exactly the digit of IDX is lit; before, the
lines are dark, the samples at their reset values and the mailbox empty (41_display_multiplexer.md R124,
42_quadrature_decoder.md R163). -/
def SinceReset (s : State) : Prop :=
  ∃ old since : List OutEvent, s.trace = old ++ .reset :: since ∧ .reset ∉ since ∧
    ((∃ d, .digitOn d ∈ since) → s.en = 1#16 <<< s.idx.toNat) ∧
    ((∀ d, .digitOn d ∉ since) → s.en = 0#16 ∧ s.lastph = 0b00#2 ∧ s.lastbtn = false ∧ s.mbox = .none)

theorem sinceReset_of_reset {s : State} {old : List OutEvent} (ht : s.trace = old ++ [.reset])
    (h : s.en = 0#16 ∧ s.lastph = 0b00#2 ∧ s.lastbtn = false ∧ s.mbox = .none) : SinceReset s :=
  ⟨old, [], ht, List.not_mem_nil, fun ⟨_, hd⟩ => absurd hd List.not_mem_nil, fun _ => h⟩

theorem sinceReset_enableOk {s : State} (h : SinceReset s) : EnableOk s := by
  obtain ⟨old, since, -, -, hlit, hdark⟩ := h
  by_cases hd : ∃ d, .digitOn d ∈ since
  · exact .inr (hlit hd)
  · exact .inl (hdark (not_exists.mp hd)).1

theorem sinceReset_effect {s : State} (i : Instr) (h : SinceReset s) : SinceReset (effect i s) := by
  have he := sinceReset_enableOk h
  obtain ⟨old, since, htrace, hreset, hlit, hdark⟩ := h
  refine ⟨old, since ++ emitted i s, ?trace, ?reset, fun hd => ?lit, fun hd => ?dark⟩
  case trace => rw [effect_trace, htrace, List.append_assoc, List.cons_append]
  case reset => exact List.not_mem_append hreset (reset_notMem_emitted i s)
  all_goals cases hi : isTick i
  case lit.true =>
    obtain ⟨btn, a, b, rfl⟩ := isTick_iff.mp hi
    exact effect_tick_en he btn a b
  case lit.false =>
    obtain ⟨hidx, hen, -⟩ := effect_of_not_tick hi s
    obtain ⟨d, hd⟩ := hd
    rw [hen, hidx]
    exact hlit ⟨d, (List.mem_append.mp hd).resolve_right (digitOn_notMem_emitted hi s d)⟩
  case dark.true =>
    obtain ⟨btn, a, b, rfl⟩ := isTick_iff.mp hi
    exact absurd (by simp [emitted]) (hd (nextIndex s.cfg s.idx))
  case dark.false =>
    obtain ⟨-, hen, -, hph, hbtn⟩ := effect_of_not_tick hi s
    obtain ⟨hdark, hph0, hbtn0, hmbox⟩ := hdark fun d h => hd d (List.mem_append_left _ h)
    exact ⟨hen.trans hdark, hph.trans hph0, hbtn.trans hbtn0, effect_mbox_none hi hmbox⟩

/-- What the trace since its last Reset says of the state is kept by everything the block can do. -/
theorem kept_sinceReset : Kept SinceReset where
  own _ _ _ _ _ h := h
  effect i h := sinceReset_effect i h
  reset _ := sinceReset_of_reset rfl ⟨rfl, rfl, rfl, rfl⟩

theorem reachable_sinceReset {c : Config} {s : State} (h : Reachable c s) : SinceReset s :=
  kept_sinceReset.reachable (sinceReset_of_reset (old := []) rfl ⟨rfl, rfl, rfl, rfl⟩) h

/-- What follows the last Reset of a trace is a part of what follows any Reset of it. -/
theorem subset_after_reset {old old' since since' : List OutEvent} (h : old ++ .reset :: since = old' ++ .reset :: since')
    (hlast : .reset ∉ since) : since ⊆ since' := by
  have hsuf : .reset :: since <:+ old' ++ .reset :: since' := h ▸ List.suffix_append ..
  rcases List.suffix_or_suffix_of_suffix hsuf (List.suffix_append old' _) with hs | hs <;>
    rcases List.suffix_cons_iff.mp hs with heq | hs
  · exact (List.cons.inj heq).2 ▸ List.Subset.refl _
  · exact fun _ he => hs.subset (List.mem_cons_of_mem _ he)
  · exact (List.cons.inj heq).2 ▸ List.Subset.refl _
  · exact absurd (hs.subset List.mem_cons_self) hlast

/-! ### The statements -/

/-- Settles O45: since the reset no digit was lit, so the samples are the reset values, from which no press and no rotation is
classified. -/
theorem firstTickAfterResetReportsNothing : Obligations.FirstTickAfterResetReportsNothing := by
  intro c s old since p hs htrace hdark
  obtain ⟨old', since', htrace', hlast, -, hsamples⟩ := reachable_sinceReset hs
  have hsub : since' ⊆ since := subset_after_reset (htrace'.symm.trans htrace) hlast
  obtain ⟨-, hph, hbtn, hmbox⟩ := hsamples fun d hd => hdark d (hsub hd)
  have hevt : tickEvent s p.btn p.a p.b = .none := by
    rw [tickEvent, hph, hbtn, pressEdge_of_last_down, selectEvent_of_no_press, rotEvent_of_not_rest (by decide)]
  obtain ⟨t, r, ht, htr, hbits, htmbox, htph, htbtn⟩ := exec_tick_event s p.btn p.a p.b
  rw [hevt] at hbits htmbox
  exact ⟨t, r, ht, htr, hbits, htmbox.trans hmbox, htph, htbtn⟩

/-- Settles O46: the codes are those of the rotations, which the table gives for each of the five sequences. -/
theorem detentsFromRestGiveTheirEvents : Obligations.DetentsFromRestGiveTheirEvents := by
  intro s btn hrest hbtn q hq
  have hcodes : rotationCodes 0b11#2 q.1 = q.2 := by
    revert q
    decide
  obtain ⟨t, rs, ht, htr, hbits⟩ := execAll_steady_ticks btn q.1 s hbtn
  exact ⟨t, rs, ht, htr, by rw [hbits, hrest, hcodes]⟩

/-- Settles O47: no command but TICK and GETEVT writes the mailbox; a TICK that does so selected an event. -/
theorem mailboxEventsAreAnsweredOrOverwritten : Obligations.MailboxEventsAreAnsweredOrOverwritten := by
  intro i s t h hne
  obtain ⟨-, -, hmbox, -⟩ := onlyTheNamedCommandsWriteEachElement i s t h
  rcases hmbox hne with ⟨btn, a, b, rfl⟩ | rfl
  · obtain ⟨u, r, hu, hur, hbits, humbox, -⟩ := exec_tick_event s btn a b
    rw [h, Host.Outcome.next.injEq] at hu
    subst hu
    split at humbox
    · exact absurd humbox hne
    · next hevt => exact .inr ⟨btn, a, b, rfl, humbox ▸ hevt, r, hur, hbits.trans (congrArg eventCode humbox.symm)⟩
  · rw [exec_getevt, Host.Outcome.next.injEq] at h
    subst h
    exact .inl ⟨rfl, rfl, rfl⟩

/-- Settles O48: a change of EVT_PENDING is a change of the mailbox, which O47 explains. -/
theorem eventPendingFollowsTheMailbox : Obligations.EventPendingFollowsTheMailbox := by
  intro i s t h
  rw [evtPending_eq_false_iff, evtPending_eq_false_iff, evtPending_iff, evtPending_iff]
  refine ⟨Iff.rfl, fun hs ht => ?_, fun hs ht => ?_⟩
  · rcases mailboxEventsAreAnsweredOrOverwritten i s t h (hs ▸ ht) with ⟨-, hnone, -⟩ | ⟨btn, a, b, hi, -⟩
    · exact absurd hnone ht
    · exact ⟨btn, a, b, hi⟩
  · rcases mailboxEventsAreAnsweredOrOverwritten i s t h (ht ▸ hs.symm) with ⟨hi, -⟩ | ⟨_, _, _, -, hsome, -⟩
    · exact hi
    · exact absurd ht hsome

/-- Settles O57, by what the trace since its last Reset says of a reachable state. -/
theorem exactlyOneDigitIsLitSinceTheFirstTick : Obligations.ExactlyOneDigitIsLitSinceTheFirstTick := by
  intro c s _ hs
  obtain ⟨old, since, htrace, hlast, hlit, hdark⟩ := reachable_sinceReset hs
  exact ⟨old, since, htrace, hlast, hlit, fun hd => (hdark hd).1⟩

end Sys2Proof.Machine
end

section
/-! SUPPORT. Runs of the relay commands (43_hysteresis_controller.md R185, R186, R188, 10_state.md R37): the dead band, the
reset thresholds, equal HEVALs, what the two ports do not share, and the statements that follow. -/

namespace Sys2Proof.Machine

/-! ### HYST -/

/-- With a fault the relay is Off, whatever the temperature and the thresholds are (43_hysteresis_controller.md R183). -/
@[simp] theorem hyst_of_fault (t l h : Half) (r : Bool) : hyst t l h true r = false := rfl

/-- Strictly between the thresholds HYST is the retained state (43_hysteresis_controller.md R183). -/
theorem hyst_of_between {t l h : Half} (hl : s16 l < s16 t) (hh : s16 t < s16 h) (r : Bool) : hyst t l h false r = r := by
  rw [hyst, if_neg Bool.false_ne_true, if_neg (Int.not_le.mpr hh), if_neg (Int.not_le.mpr hl)]

/-- No temperature is below the reset value of the high threshold, so HYST is Off (43_hysteresis_controller.md R188). -/
theorem hyst_of_reset_high (t l : Half) (fault r : Bool) : hyst t l 0x8000#16 fault r = false := by
  cases fault
  · have hmin : s16 0x8000#16 ≤ s16 t := BitVec.le_toInt t
    exact hyst_of_high hmin l r
  · exact hyst_of_fault t l _ r

/-- HYST evaluated again with the same operands gives the same (43_hysteresis_controller.md R185). -/
theorem hyst_idempotent (t l h : Half) (fault r : Bool) :
    hyst t l h fault (hyst t l h fault r) = hyst t l h fault r := by
  unfold hyst
  split_ifs <;> rfl

/-! ### Runs of HEVALs -/

/-- What any number of HEVALs with the same operands leave of the thresholds and the relay. -/
theorem execAll_hevals (fault : Bool) (v : Half) (k : Nat) : ∀ s : State,
    ∃ t, execAll (List.replicate k (.heval fault v)) s = .next t ∧
      t.relay = (if k = 0 then s.relay else relayAfter fault v s) ∧
      t.trace = s.trace ++ List.replicate k (.relay (relayAfter fault v s)) := by
  induction k with
  | zero => exact fun s => ⟨s, rfl, rfl, (List.append_nil _).symm⟩
  | succ k ih =>
    intro s
    have hu := exec_heval s fault v
    obtain ⟨t, ht, hrelay, htrace⟩ := ih (answered .host _ { s with
      relay := relayAfter fault v s, trace := s.trace ++ [.relay (relayAfter fault v s)] })
    have hagain : ∀ p r tr, relayAfter fault v (answered p r { s with relay := relayAfter fault v s, trace := tr }) =
        relayAfter fault v s := fun _ _ _ => hyst_idempotent ..
    rw [hagain] at hrelay htrace
    refine ⟨t, ?_, ?_, ?_⟩
    · rw [List.replicate_succ, execAll_cons hu, ht]
    · rw [hrelay, if_neg (Nat.succ_ne_zero k)]
      exact ite_self _
    · rw [htrace, List.replicate_succ]
      simp

/-- Relay events of one level are at most one toggle: where the level before them is another. -/
theorem togglesFrom_replicate (level v : Bool) (k : Nat) :
    togglesFrom level (List.replicate k (.relay v)) = if k = 0 ∨ v = level then 0 else 1 := by
  induction k generalizing level with
  | zero => simp [togglesFrom]
  | succ k ih =>
    rw [List.replicate_succ, togglesFrom, ih]
    split <;> simp_all

/-! ### Runs without SETHI -/

/-- If no SETHI is among the commands performed, the relay is Off and the high threshold has its reset value. -/
def OffWithoutSethi (done : List Instr) (s : State) : Prop :=
  (∀ v : Half, .sethi v ∉ done) → s.relay = false ∧ s.thigh = 0x8000#16

theorem offWithoutSethi_next (done : List Instr) (i : Instr) (s : State) (r : Word) (h : OffWithoutSethi done s) :
    OffWithoutSethi (done ++ [i]) (answered i.port r (effect i s)) := by
  intro hno
  obtain ⟨hrelay, hhigh⟩ := h fun v hv => hno v (List.mem_append_left _ hv)
  have hi : ∀ v, i ≠ .sethi v := fun v hv => hno v (by simp [hv])
  rw [answered_relay, answered_thigh, effect_thigh hi]
  refine ⟨?_, hhigh⟩
  by_cases hheval : ∃ fault v, i = .heval fault v
  · obtain ⟨fault, v, rfl⟩ := hheval
    have hoff := hyst_of_reset_high v s.tlow fault s.relay
    rwa [← hhigh] at hoff
  · push Not at hheval
    rw [effect_relay hheval, hrelay]

/-! ### The statements -/

/-- Settles O49, clause by clause from the tests of HYST. -/
theorem relayKeepsTheDeadBand : Obligations.RelayKeepsTheDeadBand := by
  intro s v
  refine ⟨fun k hl hh => ?between, fun hlh => ?low, ?high, ?fault⟩
  case between =>
    obtain ⟨t, ht, hrelay, -⟩ := execAll_hevals false v k s
    have hsame : relayAfter false v s = s.relay := hyst_of_between hl hh s.relay
    rw [hsame, ite_self] at hrelay
    exact ⟨t, ht, hrelay⟩
  case low =>
    obtain ⟨t, ht, hrelay, -⟩ := execHeval_spec false s.tlow s
    exact ⟨t, ht, hrelay.trans (hyst_of_low hlh le_rfl s.relay)⟩
  case high =>
    obtain ⟨t, ht, hrelay, -⟩ := execHeval_spec false s.thigh s
    exact ⟨t, ht, hrelay.trans (hyst_of_high le_rfl s.tlow s.relay)⟩
  case fault =>
    obtain ⟨t, ht, hrelay, -⟩ := execHeval_spec true v s
    exact ⟨t, ht, hrelay.trans (hyst_of_fault ..)⟩

/-- Settles O51: along commands without SETHI the high threshold keeps its reset value, at which HYST is Off. -/
theorem relayStaysOffUntilSethi : Obligations.RelayStaysOffUntilSethi := by
  intro c is hno
  obtain ⟨t, ht, hoff⟩ := execAll_induction (P := OffWithoutSethi) (s := State.resetOf c) (fun _ => ⟨rfl, rfl⟩)
    offWithoutSethi_next is
  exact ⟨t, ht, hoff hno⟩

/-- Settles O52: the Relay events of equal HEVALs are all of the level that the first of them drives. -/
theorem repeatedHevalTogglesAtMostOnce : Obligations.RepeatedHevalTogglesAtMostOnce := by
  intro s fault v k hline
  constructor
  · obtain ⟨t, ht, -, -, -, htrace⟩ := execHeval_spec fault v s
    refine ⟨t, ht, ?_⟩
    rw [htrace, relayToggles_append, hline]
    rfl
  · obtain ⟨t, ht, -, htrace⟩ := execAll_hevals fault v k s
    refine ⟨t, ht, ?_⟩
    rw [htrace, relayToggles_append, togglesFrom_replicate]
    split <;> omega

/-- Settles O53, from everything that TICK, SETLO, SETHI and HEVAL do. -/
theorem portsDoNotShareTheirOwnElements : Obligations.PortsDoNotShareTheirOwnElements := by
  constructor
  · intro s t p r l h he
    rw [tickOf, exec_tick, Host.Outcome.next.injEq] at he
    subst he
    refine ⟨rfl, rfl, rfl, ?_⟩
    rw [tickOf, exec_tick]
    rfl
  · rintro s t i d m n g ph bt e hi he
    rcases hi with ⟨v, rfl⟩ | ⟨v, rfl⟩ | ⟨fault, v, rfl⟩
    · rw [exec_setlo, Host.Outcome.next.injEq] at he
      subst he
      exact ⟨rfl, rfl, rfl, rfl, rfl, rfl, rfl, exec_setlo ..⟩
    · rw [exec_sethi, Host.Outcome.next.injEq] at he
      subst he
      exact ⟨rfl, rfl, rfl, rfl, rfl, rfl, rfl, exec_sethi ..⟩
    · rw [exec_heval, Host.Outcome.next.injEq] at he
      subst he
      exact ⟨rfl, rfl, rfl, rfl, rfl, rfl, rfl, exec_heval ..⟩

end Sys2Proof.Machine
end

section
/-! SUPPORT. The assembler (30_encoding.md R85, R86): each form gives its exact operands or an error, every word of a program is
that of a command, and the statements that follow. -/

namespace Sys2Proof.Machine

/-! ### The mnemonic chooses the form -/

theorem asmTokens_tick (n : Nat) (ops : List Token) : asmTokens n (word "TICK" :: ops) = asmTick ops := rfl

theorem asmTokens_wrdig (n : Nat) (ops : List Token) : asmTokens n (word "WRDIG" :: ops) = asmWrdig ops := rfl

theorem asmTokens_rddig (n : Nat) (ops : List Token) : asmTokens n (word "RDDIG" :: ops) = asmRddig ops := rfl

theorem asmTokens_wrchr (n : Nat) (ops : List Token) : asmTokens n (word "WRCHR" :: ops) = asmWrchr ops := rfl

theorem asmTokens_setlo (n : Nat) (ops : List Token) : asmTokens n (word "SETLO" :: ops) = asmThreshold .setlo ops := rfl

theorem asmTokens_sethi (n : Nat) (ops : List Token) : asmTokens n (word "SETHI" :: ops) = asmThreshold .sethi ops := rfl

theorem asmTokens_heval (n : Nat) (ops : List Token) : asmTokens n (word "HEVAL" :: ops) = asmHeval ops := rfl

theorem asmTokens_rdreg (n : Nat) (ops : List Token) : asmTokens n (word "RDREG" :: ops) = asmRdreg ops := rfl

theorem asmTokens_tickph (n : Nat) (ops : List Token) : asmTokens n (word "TICKPH" :: ops) = asmTickph ops := rfl

theorem asmTokens_setth (n : Nat) (ops : List Token) : asmTokens n (word "SETTH" :: ops) = asmSetth ops := rfl

theorem asmTokens_puts (n : Nat) (ops : List Token) : asmTokens n (word "PUTS" :: ops) = asmPuts n ops := rfl

/-! ### Each form with operands: exact operands or an error -/

/-- A name of the language is itself. -/
@[simp] theorem isName_toList (w : String) : isName w.toList w = true := beq_self_eq_true _

/-- A form of one operand gives its commands where the operand fits, and an error where it does not. -/
theorem map_fits {α : Type} (fits : Prop) [Decidable fits] (a : α) (f : α → List Instr) :
    (if fits then Except.ok a else .error .outOfRange).map f = onlyIf fits (f a) := by
  rw [onlyIf]
  split <;> rfl

section
variable {x y z t u : List Char} {i j k : Nat} {v w : Int}

theorem asmTick_numbers (hx : unsignedNumber x = .ok i) (hy : unsignedNumber y = .ok j) (hz : unsignedNumber z = .ok k) :
    asmTick [word "a", .equals, .name x, .comma, word "b", .equals, .name y, .comma, word "btn", .equals, .name z] =
      onlyIf (i < 2 ∧ j < 2 ∧ k < 2) [.tick (decide (k = 1)) (decide (i = 1)) (decide (j = 1))] := by
  simp only [asmTick, word, isName_toList, Bool.and_self, if_true, bitOperand_number hx, bitOperand_number hy,
    bitOperand_number hz, onlyIf]
  by_cases hi : i < 2 <;> by_cases hj : j < 2 <;> by_cases hk : k < 2 <;>
    simp only [hi, hj, hk, if_true, if_false, and_true, and_false]

theorem asmWrdig_numbers (hx : unsignedNumber x = .ok i) (hy : unsignedNumber y = .ok j) :
    asmWrdig [.name x, .comma, .name y] =
      onlyIf (i < 16 ∧ j < 256) [.wrdig (BitVec.ofNat 4 i) (BitVec.ofNat 8 j)] := by
  simp only [asmWrdig, indexOperand_number hx, natBelow_number 256 hy, onlyIf]
  by_cases hi : i < 16 <;> by_cases hj : j < 256 <;> simp only [hi, hj, if_true, if_false, and_true, and_false]

theorem asmRddig_number (hx : unsignedNumber x = .ok i) :
    asmRddig [.name x] = onlyIf (i < 16) [.rddig (BitVec.ofNat 4 i)] := by
  simp only [asmRddig, indexOperand_number hx, map_fits]

theorem asmWrchr_plain (pos : List Char) (o : Token) :
    asmWrchr [.name pos, .comma, o] = wrchrOperands false pos o := rfl

theorem asmWrchr_dp (pos : List Char) (o : Token) :
    asmWrchr [.name pos, .comma, o, .comma, word "dp"] = wrchrOperands true pos o := rfl

/-- Both forms of WRCHR with a quoted character. -/
theorem wrchrOperands_quoted (dp : Bool) (c : Char) (hx : unsignedNumber x = .ok i) :
    wrchrOperands dp x (.quoted c) =
      onlyIf (i < 16 ∧ c.toNat < 256) [.wrchr (BitVec.ofNat 4 i) false dp (BitVec.ofNat 8 c.toNat)] := by
  simp only [wrchrOperands, indexOperand_number hx, charCode, onlyIf]
  by_cases hi : i < 16 <;> by_cases hc : c.toNat < 256 <;> simp only [hi, hc, if_true, if_false, and_true, and_false]

/-- Both forms of WRCHR with ERR. -/
theorem wrchrOperands_err (dp : Bool) (hx : unsignedNumber x = .ok i) :
    wrchrOperands dp x (word "ERR") = onlyIf (i < 16) [.wrchr (BitVec.ofNat 4 i) true dp 0x00#8] := by
  simp only [wrchrOperands, word, isName_toList, if_true, indexOperand_number hx, map_fits]

theorem asmThreshold_integer (make : Half → Instr) (ht : WritesInteger t v) :
    asmThreshold make [.name t] = onlyIf (-32768 ≤ v ∧ v ≤ 32767) [make (BitVec.ofInt 16 v)] := by
  simp only [asmThreshold, temperature_integer ht, map_fits]

theorem asmHeval_integer (ht : WritesInteger t v) :
    asmHeval [.name t] = onlyIf (-32768 ≤ v ∧ v ≤ 32767) [.heval false (BitVec.ofInt 16 v)] := by
  simp only [asmHeval, temperature_integer ht, map_fits]

theorem asmHeval_integer_fault (ht : WritesInteger t v) :
    asmHeval [.name t, .comma, word "fault"] = onlyIf (-32768 ≤ v ∧ v ≤ 32767) [.heval true (BitVec.ofInt 16 v)] := by
  simp only [asmHeval, word, isName_toList, if_true, temperature_integer ht, map_fits]

theorem asmRdreg_number (hx : unsignedNumber x = .ok i) :
    asmRdreg [.name x] = onlyIf (i < 10) [.rdreg (BitVec.ofNat 4 i)] := by
  simp only [asmRdreg, registerOperand_number hx, map_fits]

theorem asmTickph_phase (hx : unsignedNumber x = .ok i) :
    asmTickph [.name x] = onlyIf (i < 4) [.tick true (i.testBit 1) (i.testBit 0)] := by
  simp only [asmTickph, natBelow_number 4 hx, map_fits, tickOfPhase]

theorem asmTickph_phase_btn (hx : unsignedNumber x = .ok i) (hy : unsignedNumber y = .ok j) :
    asmTickph [.name x, .comma, word "btn", .equals, .name y] =
      onlyIf (i < 4 ∧ j < 2) [.tick (decide (j = 1)) (i.testBit 1) (i.testBit 0)] := by
  simp only [asmTickph, word, isName_toList, if_true, natBelow_number 4 hx, bitOperand_number hy, onlyIf, tickOfPhase]
  by_cases hi : i < 4 <;> by_cases hj : j < 2 <;> simp only [hi, hj, if_true, if_false, and_true, and_false]

theorem asmSetth_integers (ht : WritesInteger t v) (hu : WritesInteger u w) :
    asmSetth [.name t, .comma, .name u] =
      onlyIf ((-32768 ≤ v ∧ v ≤ 32767) ∧ (-32768 ≤ w ∧ w ≤ 32767))
        [.setlo (BitVec.ofInt 16 v), .sethi (BitVec.ofInt 16 w)] := by
  simp only [asmSetth, temperature_integer ht, temperature_integer hu, onlyIf]
  by_cases hv : -32768 ≤ v ∧ v ≤ 32767 <;> by_cases hw : -32768 ≤ w ∧ w ≤ 32767 <;>
    simp only [hv, hw, if_true, if_false, and_true, and_false]

theorem asmPuts_text (n : Nat) (cs : List Char) (hx : unsignedNumber x = .ok i) :
    asmPuts n [.name x, .comma, .text cs] =
      onlyIf (i < 16 ∧ i + cs.length ≤ n ∧ ∀ d ∈ cs, d.toNat < 256)
        ((cs.zipIdx i).map (fun q => .wrchr (BitVec.ofNat 4 q.2) false false (BitVec.ofNat 8 q.1.toNat))) := by
  simp only [asmPuts, natBelow_number 16 hx, onlyIf]
  by_cases hi : i < 16
  · by_cases hn : i + cs.length ≤ n
    · by_cases hc : ∀ d ∈ cs, d.toNat < 256
      · rw [if_pos hi, if_pos ⟨hi, hn, hc⟩]
        exact (if_pos hn).trans (putChars_small i hc)
      · rw [if_pos hi, if_neg fun h => hc h.2.2]
        exact (if_pos hn).trans (putChars_large i hc)
    · rw [if_pos hi, if_neg fun h => hn h.2.1]
      exact if_neg hn
  · rw [if_neg hi, if_neg fun h => hi h.1]

end

/-! ### Register numbers of assembled commands -/

/-- Whether a command's register number, if it has one, is at most nine. -/
def registerFits : Instr → Bool
  | .rdreg sel => decide (sel.toNat ≤ 9)
  | _ => true

/-- Whether the commands an assembly gives, if it gives any, have register numbers of at most nine. -/
def registersFit : Except AsmError (List Instr) → Bool
  | .ok is => is.all registerFits
  | .error _ => true

theorem registersFit_ok (is : List Instr) : registersFit (.ok is) = is.all registerFits := rfl

theorem registersFit_map {α : Type} (r : Except AsmError α) {f : α → List Instr}
    (h : ∀ a, r = .ok a → (f a).all registerFits = true) : registersFit (r.map f) = true := by
  cases r with
  | error e => rfl
  | ok a => exact h a rfl

theorem registersFit_ite {p : Prop} [Decidable p] {a b : Except AsmError (List Instr)} (ha : registersFit a = true)
    (hb : registersFit b = true) : registersFit (if p then a else b) = true := by
  split
  · exact ha
  · exact hb

theorem registersFit_noOperand {is : List Instr} (h : is.all registerFits = true) (ops : List Token) :
    registersFit (noOperand is ops) = true := by
  unfold noOperand
  split
  · exact h
  · rfl

theorem registersFit_tick (ops : List Token) : registersFit (asmTick ops) = true := by
  unfold asmTick
  repeat' split
  all_goals rfl

theorem registersFit_wrdig (ops : List Token) : registersFit (asmWrdig ops) = true := by
  unfold asmWrdig
  repeat' split
  all_goals rfl

theorem registersFit_rddig (ops : List Token) : registersFit (asmRddig ops) = true := by
  unfold asmRddig
  split
  · exact registersFit_map _ fun _ _ => rfl
  · rfl

theorem registersFit_wrchrOperands (dp : Bool) (pos : List Char) (t : Token) :
    registersFit (wrchrOperands dp pos t) = true := by
  unfold wrchrOperands
  split
  · split <;> rfl
  · split
    · exact registersFit_map _ fun _ _ => rfl
    · rfl
  all_goals rfl

theorem registersFit_wrchr (ops : List Token) : registersFit (asmWrchr ops) = true := by
  unfold asmWrchr
  split
  · exact registersFit_wrchrOperands ..
  · split
    · exact registersFit_wrchrOperands ..
    · rfl
  · rfl

theorem registersFit_threshold {make : Half → Instr} (h : ∀ v, registerFits (make v) = true) (ops : List Token) :
    registersFit (asmThreshold make ops) = true := by
  unfold asmThreshold
  split
  · exact registersFit_map _ fun v _ => by simp [h v]
  · rfl

theorem registersFit_heval (ops : List Token) : registersFit (asmHeval ops) = true := by
  unfold asmHeval
  split
  · exact registersFit_map _ fun _ _ => rfl
  · split
    · exact registersFit_map _ fun _ _ => rfl
    · rfl
  · rfl

/-- The one form that gives an RDREG with an operand of the line: a register name or a number 0..9 (30_encoding.md R85). -/
theorem registersFit_rdreg (ops : List Token) : registersFit (asmRdreg ops) = true := by
  unfold asmRdreg
  split
  · exact registersFit_map _ fun sel hsel => by simp [registerFits, registerOperand_le hsel]
  · rfl

theorem registersFit_tickph (ops : List Token) : registersFit (asmTickph ops) = true := by
  unfold asmTickph
  split
  · exact registersFit_map _ fun _ _ => rfl
  · repeat' split
    all_goals rfl
  · rfl

theorem registersFit_setth (ops : List Token) : registersFit (asmSetth ops) = true := by
  unfold asmSetth
  repeat' split
  all_goals rfl

theorem registersFit_putChars (pos : Nat) (cs : List Char) : registersFit (putChars pos cs) = true := by
  induction cs generalizing pos with
  | nil => rfl
  | cons c cs ih =>
    have htail := ih (pos + 1)
    rw [putChars_cons]
    split
    · next h => rw [h] at htail; exact htail
    · rfl
    · rfl

theorem registersFit_puts (n : Nat) (ops : List Token) : registersFit (asmPuts n ops) = true := by
  unfold asmPuts
  repeat' split
  case h_1.isTrue => exact registersFit_putChars ..
  all_goals rfl

/-- Every register number of a tokenised line is at most nine, whatever the line is. -/
theorem registersFit_asmTokens (n : Nat) (ts : List Token) : registersFit (asmTokens n ts) = true := by
  have hclear : (clearDisplay n).all registerFits = true := by simp [clearDisplay, registerFits]
  match ts with
  | .name m :: ops =>
    exact registersFit_ite (registersFit_noOperand rfl ops) <| registersFit_ite (registersFit_tick ops) <|
      registersFit_ite (registersFit_wrdig ops) <| registersFit_ite (registersFit_rddig ops) <|
      registersFit_ite (registersFit_wrchr ops) <| registersFit_ite (registersFit_noOperand rfl ops) <|
      registersFit_ite (registersFit_threshold (fun _ => rfl) ops) <|
      registersFit_ite (registersFit_threshold (fun _ => rfl) ops) <| registersFit_ite (registersFit_heval ops) <|
      registersFit_ite (registersFit_rdreg ops) <| registersFit_ite (registersFit_noOperand rfl ops) <|
      registersFit_ite (registersFit_tickph ops) <| registersFit_ite (registersFit_noOperand hclear ops) <|
      registersFit_ite (registersFit_setth ops) <| registersFit_ite (registersFit_noOperand rfl ops) <|
      registersFit_ite (registersFit_noOperand rfl ops) <| registersFit_ite (registersFit_puts n ops) rfl
  | [] | .comma :: _ | .equals :: _ | .quoted _ :: _ | .text _ :: _ => rfl

theorem registersFit_assembleLine (n : Nat) (line : List Char) : registersFit (assembleLine n line) = true := by
  unfold assembleLine
  split
  · exact registersFit_asmTokens n _
  · rfl

/-- Every word of an assembled program is the word of a command whose register number, if it has one, is at most nine. -/
theorem mem_assemble {n : Nat} {ls : List (List Char)} {ws : List Word} (h : assemble n ls = .ok ws) {w : Word}
    (hw : w ∈ ws) : ∃ i, w = encode i ∧ registerFits i = true := by
  induction ls generalizing ws with
  | nil => cases h; cases hw
  | cons l ls ih =>
    have hline := registersFit_assembleLine n l
    unfold assemble at h
    split at h <;> cases h
    next is ws' hl hls =>
      rw [hl, registersFit_ok, List.all_eq_true] at hline
      rcases List.mem_append.mp hw with hw | hw
      · obtain ⟨i, hi, rfl⟩ := List.mem_map.mp hw
        exact ⟨i, rfl, hline i hi⟩
      · exact ih hls hw

/-! ### The statements -/

/-- Settles O58, by evaluating the assembler on the lines. -/
theorem assemblyExamplesGiveTheirWords : Obligations.AssemblyExamplesGiveTheirWords := by
  unfold Obligations.AssemblyExamplesGiveTheirWords
  decide

/-- Settles O59, form by form; the words of a program decode by the round trip of the encoding. -/
theorem assembledProgramsHoldOnlyCommands : Obligations.AssembledProgramsHoldOnlyCommands := by
  constructor
  · intro n x y z t u i j k v w c cs hx hy hz ht hu
    rw [asmTokens_tick, asmTokens_wrdig, asmTokens_rddig, asmTokens_wrchr, asmTokens_wrchr, asmTokens_wrchr,
      asmTokens_wrchr, asmWrchr_plain, asmWrchr_dp, asmWrchr_plain, asmWrchr_dp, asmTokens_setlo, asmTokens_sethi,
      asmTokens_heval, asmTokens_heval, asmTokens_rdreg, asmTokens_tickph, asmTokens_tickph, asmTokens_setth,
      asmTokens_puts]
    exact ⟨asmTick_numbers hx hy hz, asmWrdig_numbers hx hy, asmRddig_number hx, wrchrOperands_quoted false c hx,
      wrchrOperands_quoted true c hx, wrchrOperands_err false hx, wrchrOperands_err true hx, asmThreshold_integer _ ht,
      asmThreshold_integer _ ht, asmHeval_integer ht, asmHeval_integer_fault ht, asmRdreg_number hx, asmTickph_phase hx,
      asmTickph_phase_btn hx hy, asmSetth_integers ht hu, asmPuts_text n cs hx⟩
  · intro n ls ws h w hw
    obtain ⟨i, rfl, hi⟩ := mem_assemble h hw
    refine ⟨i, decodeOfEncodeIsTheCommand i, ?_⟩
    rintro sel rfl
    exact of_decide_eq_true hi

end Sys2Proof.Machine
end
